-- ==== Sys2Proof/Word.lean ====
section
/-! DEFINITION. The machine word and the byte of the block (spec 00_scope.md R10, R12). -/

namespace Sys2Proof

/-- A 32-bit register, command word or SHA-256 word; unsigned, bit 0 the least significant (R10, R12, R212). -/
abbrev Word := BitVec 32

/-- A byte of entropy or of a digest (R13). -/
abbrev Byte := BitVec 8

end Sys2Proof
end

