-- ==== Sys2Proof/Syntax.lean ====
section
/-! DEFINITION. The command words of the block as syntax: one constructor per row of spec/opcode_table.json. -/

namespace Sys2Proof

/-- The six rows of the opcode table (30_encoding.md R101, R102). A command has no operand field (R100, R103), so only
the default row carries data: the word itself, which no other row matches. -/
inductive Instr where
  /-- VALIDATE, word 0x00000001 (40_validate.md R131). -/
  | validate
  /-- ENCODE, word 0x00000002 (41_encode.md R150). -/
  | encode
  /-- DECODE, word 0x00000003 (42_decode.md R180). -/
  | decode
  /-- HASH, word 0x00000004 (43_hash.md R210). -/
  | hash
  /-- CLEAR, word 0x00000005 (44_control.md R254). -/
  | clear
  /-- ILLEGAL, every other word (44_control.md R255). -/
  | illegal (word : Word)
  deriving DecidableEq, Repr

end Sys2Proof
end

