-- ==== Sys2Proof/WellFormed.lean ====
section
/-! DEFINITION. Which instruction terms stand for command words: the default row takes only a word that R255 calls illegal. -/

namespace Sys2Proof

/-- R100: field `MBZ`, bits 31:4 of a command word. -/
def mbzField (w : Word) : BitVec 28 := w.extractLsb' 4 28

/-- R100: field `OP`, bits 3:0 of a command word. -/
def opField (w : Word) : BitVec 4 := w.extractLsb' 0 4

/-- R104, R255: `v[31:4] ≠ 0, or v[3:0] ∈ {0x0, 0x6..0xF}`. -/
def illegalWord (w : Word) : Bool := mbzField w != 0 || opField w == 0 || 6 ≤ (opField w).toNat

/-- The check of one instruction term; the only term with a field is the default row's. -/
def Instr.wellFormed : Instr → Bool
  | .validate => true
  | .encode => true
  | .decode => true
  | .hash => true
  | .clear => true
  | .illegal w => illegalWord w

/-- A well-formed instruction: one that is the decoding of some command word. -/
abbrev WellFormed (i : Instr) : Prop := i.wellFormed = true

end Sys2Proof
end

