-- ==== Sys2Proof/Decode.lean ====
section
/-! DEFINITION. The decoder of command words, total on all 2^32 words (30_encoding.md R102), and the encoder (R101). -/

namespace Sys2Proof

/-- R102: the decoder. Every word that is none of the five commands is the default row ILLEGAL, by name. -/
def decode (v : Word) : Instr :=
  if v = 0x00000001 then .validate
  else if v = 0x00000002 then .encode
  else if v = 0x00000003 then .decode
  else if v = 0x00000004 then .hash
  else if v = 0x00000005 then .clear
  else .illegal v

/-- R101: the OP field of each command. -/
def opcode : Instr → BitVec 4
  | .validate => 0x1
  | .encode => 0x2
  | .decode => 0x3
  | .hash => 0x4
  | .clear => 0x5
  | .illegal w => opField w

/-- R100: the MBZ field, zero in every command; an illegal word has the bits it has. -/
def mbz : Instr → BitVec 28
  | .validate => 0
  | .encode => 0
  | .decode => 0
  | .hash => 0
  | .clear => 0
  | .illegal w => mbzField w

/-- R100, R101: the command word of an instruction, `MBZ` above `OP`. -/
def encode (i : Instr) : Word := mbz i ++ opcode i

/-- The decoder on a row of the opcode table, bits numbered as the table numbers them. A command is one 32-bit word
(R107), so a row of more than 32 bits would be no command (log 12). -/
def decodeTableWord (nbits w : Nat) : Option Instr :=
  if nbits ≤ 32 then some (decode (BitVec.ofNat 32 (w % 2 ^ nbits))) else none

end Sys2Proof
end

