-- ==== Sys2Proof/Config.lean ====
section
/-! DEFINITION. What the spec leaves open and a platform or an implementation fixes (00_scope.md R11; 93 U1, U11).
Each is a constant without a body: no proof can see its value. -/

namespace Sys2Proof

/-- R11: BASE is a multiple of 256; this is that multiple, fixed by the platform and unknown to the model (log 5). -/
opaque Config.windowIndex : Nat

/-- R11, R71: the bus address of offset 0x00 of the register window, a multiple of 256. -/
def Config.base : Nat := 256 * Config.windowIndex

/-- R345, 93 U1: the value answered by the `n`-th read of a BUSY_UNSPECIFIED offset while BUSY = 1, a free value:
a fresh draw for every read, since `State.draws` counts the reads (log 3). -/
opaque Config.busyRead : Nat → Word

end Sys2Proof
end

