-- ==== Sys2Proof/Machine/State.lean ====
section
/-! DEFINITION. The state of one block instance as plain data (10_state.md R30, R50; reset 70_reset_and_hazards.md R340),
with the bus requests and responses of 20_memory.md R70, the agenda that orders the coming events (log 1), and the reasons
a step could stop. -/

namespace Sys2Proof.Machine

/-- R70: the size of a bus request. -/
inductive AccessSize where
  | byte
  | halfword
  | word
  deriving DecidableEq, Repr

/-- R71: a bus address as the window decodes it: the 8-bit offset of an address inside the window, or an address
outside it, which the block does not see (log 5). -/
inductive Address where
  | window (off : BitVec 8)
  | elsewhere (addr : Nat)
  deriving DecidableEq, Repr

/-- R70: a bus request. -/
structure Request where
  write : Bool
  addr : Address
  size : AccessSize
  wdata : Word
  deriving DecidableEq, Repr

/-- R70: the two bus answers. -/
inductive Resp where
  | okay
  | error
  deriving DecidableEq, Repr

/-- R70: a bus response. -/
structure Response where
  resp : Resp
  rdata : Word
  deriving DecidableEq, Repr

/-- What can happen next to the block: a bus request (R70), a moment at which the completion step may be taken
(R252), or an assertion of the reset input (R340, R341). -/
inductive Event where
  | bus (r : Request)
  | completion
  | reset
  deriving DecidableEq, Repr

/-- R30, R50: the architectural state of one block instance, and the model's own fields `agenda`, `response`, `draws`. -/
structure State where
  /-- CTRL.IE (R32). -/
  ctrlIe : Bool
  /-- STATUS.BUSY (R34). -/
  statusBusy : Bool
  /-- STATUS.DONE (R34). -/
  statusDone : Bool
  /-- STATUS.OVR (R34). -/
  statusOvr : Bool
  /-- ERR_CODE[3:0] (R36). -/
  errCode : BitVec 4
  /-- ERR_INFO (R37). -/
  errInfo : Word
  /-- ENT_LEN (R38). -/
  entLen : Word
  /-- WCOUNT (R39). -/
  wcount : Word
  /-- CSUM[7:0] (R40). -/
  csum : Byte
  /-- ENT[0..7] (R41). -/
  ent : Vector Word 8
  /-- DIGEST[0..7] (R42). -/
  digest : Vector Word 8
  /-- IDX[0..23] (R43). -/
  idx : Vector Word 24
  /-- PEND, hidden (R46). -/
  pend : Word
  /-- The model's own: the coming events, first one first (log 1). -/
  agenda : List Event
  /-- The model's own: the block's answer to the last bus request (log 4). -/
  response : Option Response
  /-- The model's own: how many unspecified busy reads have been answered (log 3). -/
  draws : Nat
  deriving DecidableEq, Repr

/-- Why a step could fault: for no reason. No rule of the spec stops the block: a command error is a completion
(60_exceptions.md R300) and an illegal access gets an ERROR response (20_memory.md R73). -/
inductive Fault where
  deriving DecidableEq, Repr

/-- Why a step could be refused. -/
inductive Refusal where
  /-- An instruction without a meaning yet. No arm of `exec` raises it: every row of the table is modelled. Safe. -/
  | notModelled (mnemonic : String)
  deriving DecidableEq, Repr

/-- R340: the state right after reset, every register and PEND zero. The model's own fields start empty
(DESIGN CHOICE, log 1, log 3, log 4). -/
def State.reset : State :=
  { ctrlIe := false, statusBusy := false, statusDone := false, statusOvr := false,
    errCode := 0, errInfo := 0, entLen := 0, wcount := 0, csum := 0,
    ent := Vector.replicate 8 0, digest := Vector.replicate 8 0, idx := Vector.replicate 24 0,
    pend := 0, agenda := [], response := none, draws := 0 }

end Sys2Proof.Machine
end

