-- ==== Sys2Proof/Machine/Flags.lean ====
section
/-! DEFINITION. The flags of the block: STATUS.BUSY, DONE, ERR, OVR and the output irq (10_state.md R34, R35, R48, R49). -/

namespace Sys2Proof.Machine

/-- R34: STATUS.ERR reads as 1 exactly when ERR_CODE ≠ 0. -/
def State.statusErr (s : State) : Bool := s.errCode != 0

/-- R49, R310: the interrupt output, `CTRL.IE & STATUS.DONE`. -/
def State.irq (s : State) : Bool := s.ctrlIe && s.statusDone

/-- R34: STATUS as read: bit 0 BUSY, bit 1 DONE, bit 2 ERR, bit 3 OVR, bits 31:4 zero. -/
def statusWord (s : State) : Word :=
  (BitVec.ofBool s.statusOvr ++ BitVec.ofBool s.statusErr ++ BitVec.ofBool s.statusDone
    ++ BitVec.ofBool s.statusBusy).setWidth 32

/-- R32: CTRL as read: bit 0 IE, bits 31:1 zero. -/
def ctrlWord (s : State) : Word := (BitVec.ofBool s.ctrlIe).setWidth 32

/-- R250: an issue sets BUSY and clears DONE. -/
def flagsAtIssue (s : State) : State := { s with statusBusy := true, statusDone := false }

/-- R252: a completion clears BUSY and sets DONE. -/
def flagsAtCompletion (s : State) : State := { s with statusBusy := false, statusDone := true }

/-- R344: a write the busy rule drops sets OVR. -/
def setOverrun (s : State) : State := { s with statusOvr := true }

/-- R35: the write-1-to-clear of STATUS. -/
def clearStatusBits (v : Word) (s : State) : State :=
  { s with statusDone := s.statusDone && !v.getLsbD 1, statusOvr := s.statusOvr && !v.getLsbD 3 }

end Sys2Proof.Machine
end

