-- ==== Sys2Proof/Machine/Ops.lean ====
section
/-! DEFINITION. The operations commands share: issue, the two ways a completion ends (success and error, the block's
analogue of trap entry), the scrub of the buffers, and reset. -/

namespace Sys2Proof.Machine

/-- R301: the errors the block itself reports. Code 5 and codes 8 to 15 have no constructor: the block never writes them. -/
inductive ErrorKind where
  | invalidEntropyLength
  | invalidWordCount
  | unknownWord
  | checksumMismatch
  | illegalCommand
  | hashLength
  deriving DecidableEq, Repr

/-- R301: the error codes. -/
def errorCode : ErrorKind → BitVec 4
  | .invalidEntropyLength => 1
  | .invalidWordCount => 2
  | .unknownWord => 3
  | .checksumMismatch => 4
  | .illegalCommand => 6
  | .hashLength => 7

/-- R250: the issue of command word `v`. -/
def issue (v : Word) (s : State) : State :=
  { flagsAtIssue s with pend := v, errCode := 0, errInfo := 0 }

/-- R303: `complete_ok()`, with the completion's flags (R252). -/
def completeOk (s : State) : State :=
  { flagsAtCompletion s with errCode := 0, errInfo := 0 }

/-- R304: `raise Error(code, info)`, with the completion's flags (R252), and nothing else. This is what the block has in
place of taking an exception (R307): no mode, vector or saved program counter exists. -/
def raiseError (e : ErrorKind) (info : Word) (s : State) : State :=
  { flagsAtCompletion s with errCode := errorCode e, errInfo := info }

/-- R254: every operand and result register zero. -/
def scrubBuffers (s : State) : State :=
  { s with
    ent := Vector.replicate 8 0, digest := Vector.replicate 8 0, idx := Vector.replicate 24 0,
    entLen := 0, wcount := 0, csum := 0 }

/-- R340, R341: reset, one atomic step; a command in flight is abandoned. What the environment will do next, and the
count of free values already drawn, are no state of the block and stay (log 3). -/
def applyReset (s : State) : State := { State.reset with agenda := s.agenda, draws := s.draws }

end Sys2Proof.Machine
end

