-- ==== Sys2Proof/Machine/Bus.lean ====
section
/-! DEFINITION. The bus target: the register map (10_state.md R31 to R45), reads and writes of the window (20_memory.md
R70 to R75) and the busy rules (70_reset_and_hazards.md R344 to R346). -/

namespace Sys2Proof.Machine

/-- R31: the registers of the window. -/
inductive Reg where
  | ctrl
  | cmd
  | status
  | errCode
  | errInfo
  | entLen
  | wcount
  | csum
  | ent (k : Fin 8)
  | digest (k : Fin 8)
  | idx (j : Fin 24)
  | reserved
  deriving DecidableEq, Repr

/-- R31: the register at an aligned offset. -/
def regAt (off : BitVec 8) : Reg :=
  let w := off.toNat / 4
  if w = 0 then .ctrl
  else if w = 1 then .cmd
  else if w = 2 then .status
  else if w = 3 then .errCode
  else if w = 4 then .errInfo
  else if w = 5 then .entLen
  else if w = 6 then .wcount
  else if w = 7 then .csum
  else if w < 16 then .ent (Fin.ofNat 8 (w - 8))
  else if w < 24 then .digest (Fin.ofNat 8 (w - 16))
  else if w < 48 then .idx (Fin.ofNat 24 (w - 24))
  else .reserved

/-- R71: address decoding. `BASE ≤ addr < BASE + 256` selects the block, with offset `addr - BASE`. -/
def decodeAddress (addr : Nat) : Address :=
  if Config.base ≤ addr ∧ addr < Config.base + 256 then .window (BitVec.ofNat 8 (addr - Config.base))
  else .elsewhere addr

/-- R72: a legal access is of size 4 at an offset that is a multiple of 4. -/
def legalAccess (size : AccessSize) (off : BitVec 8) : Bool := size == .word && off.toNat % 4 == 0

/-- R31 to R45: the value a register reads as. -/
def registerValue (r : Reg) (s : State) : Word :=
  match r with
  | .ctrl => ctrlWord s
  | .cmd => 0
  | .status => statusWord s
  | .errCode => s.errCode.setWidth 32
  | .errInfo => s.errInfo
  | .entLen => s.entLen
  | .wcount => s.wcount
  | .csum => s.csum.setWidth 32
  | .ent k => s.ent[k]
  | .digest k => s.digest[k]
  | .idx j => s.idx[j]
  | .reserved => 0

/-- R345: the set BUSY_UNSPECIFIED, as registers. -/
def busyUnspecified : Reg → Bool
  | .entLen => true
  | .wcount => true
  | .csum => true
  | .ent _ => true
  | .digest _ => true
  | .idx _ => true
  | .ctrl => false
  | .cmd => false
  | .status => false
  | .errCode => false
  | .errInfo => false
  | .reserved => false

/-- R344: the registers whose writes the busy rule drops. -/
def droppedWhileBusy : Reg → Bool
  | .cmd => true
  | .entLen => true
  | .wcount => true
  | .ent _ => true
  | .idx _ => true
  | .ctrl => false
  | .status => false
  | .errCode => false
  | .errInfo => false
  | .csum => false
  | .digest _ => false
  | .reserved => false

/-- R75, the column BUSY = 0: the effect of a legal write that is not dropped. -/
def storeRegister (r : Reg) (v : Word) (s : State) : State :=
  match r with
  | .ctrl => { s with ctrlIe := v.getLsbD 0 }
  | .cmd => issue v s
  | .status => clearStatusBits v s
  | .entLen => { s with entLen := v }
  | .wcount => { s with wcount := v }
  | .ent k => { s with ent := s.ent.set k v }
  | .idx j => { s with idx := s.idx.set j v }
  | .errCode => s
  | .errInfo => s
  | .csum => s
  | .digest _ => s
  | .reserved => s

/-- R75, R344: a legal write. -/
def writeRegister (r : Reg) (v : Word) (s : State) : State :=
  if s.statusBusy && droppedWhileBusy r then setOverrun s else storeRegister r v s

/-- R74, R345: the value a legal read answers. -/
def readValue (r : Reg) (s : State) : Word :=
  if s.statusBusy && busyUnspecified r then Config.busyRead s.draws else registerValue r s

/-- R74: a legal read changes no state of the block; only the model's count of free values moves on (log 3). -/
def afterRead (r : Reg) (s : State) : State :=
  if s.statusBusy && busyUnspecified r then { s with draws := s.draws + 1 } else s

/-- R70: the block's answer on the bus. -/
def respond (resp : Resp) (rdata : Word) (s : State) : State := { s with response := some { resp, rdata } }

/-- R72 to R75: one request to the window at offset `off`. -/
def windowAccess (off : BitVec 8) (r : Request) (s : State) : State :=
  if legalAccess r.size off then
    if r.write then respond .okay 0 (writeRegister (regAt off) r.wdata s)
    else respond .okay (readValue (regAt off) s) (afterRead (regAt off) s)
  else respond .error 0 s

/-- R71: one request on the bus; one outside the window is not seen, and the block gives no answer. -/
def busRequest (r : Request) (s : State) : State :=
  match r.addr with
  | .window off => windowAccess off r s
  | .elsewhere _ => { s with response := none }

end Sys2Proof.Machine
end

