-- ==== Sys2Proof/Machine/Control.lean ====
section
/-! DEFINITION. CLEAR and the illegal command words (44_control.md). -/

namespace Sys2Proof.Machine

/-- R254: CLEAR always succeeds. -/
def execClear (s : State) : Host.Outcome State Fault Refusal := .next (completeOk (scrubBuffers s))

/-- R255: an illegal word completes with ILLEGAL_COMMAND and the word, read from PEND (log 13). -/
def execIllegal (s : State) : Host.Outcome State Fault Refusal := .next (raiseError .illegalCommand s.pend s)

end Sys2Proof.Machine
end

