-- ==== Sys2Proof/Machine/Sha256.lean ====
section
/-! DEFINITION. The Checksum Primitive: SHA-256 as 43_hash.md R211 to R222 write it out (log 10).
Written for a message of any length; the block only hashes messages of at most 32 bytes (R211). -/

namespace Sys2Proof.Machine

/-- Four bytes as one word, the first byte in bits 31:24 (R212, R214; also R105, R106). -/
def wordOfBytes (b0 b1 b2 b3 : Byte) : Word :=
  (b0.setWidth 32 <<< 24) ||| (b1.setWidth 32 <<< 16) ||| (b2.setWidth 32 <<< 8) ||| b3.setWidth 32

/-- Byte `b` (0 to 3) of a word, byte 0 in bits 31:24 (R77, R105, R222). -/
def byteOfWord (w : Word) (b : Nat) : Byte := (w >>> (24 - 8 * b)).setWidth 8

/-- R212: `ROTR(x, n)` on 32 bits. -/
def rotr (x : Word) (n : Nat) : Word := (x >>> n) ||| (x <<< (32 - n))

/-- R212: `SHR(x, n)`. -/
def shr (x : Word) (n : Nat) : Word := x >>> n

/-- R215: `Ch`. -/
def shaCh (x y z : Word) : Word := (x &&& y) ^^^ (~~~x &&& z)

/-- R215: `Maj`. -/
def shaMaj (x y z : Word) : Word := (x &&& y) ^^^ (x &&& z) ^^^ (y &&& z)

/-- R215: `Σ0`. -/
def bigSigma0 (x : Word) : Word := rotr x 2 ^^^ rotr x 13 ^^^ rotr x 22

/-- R215: `Σ1`. -/
def bigSigma1 (x : Word) : Word := rotr x 6 ^^^ rotr x 11 ^^^ rotr x 25

/-- R215: `σ0`. -/
def smallSigma0 (x : Word) : Word := rotr x 7 ^^^ rotr x 18 ^^^ shr x 3

/-- R215: `σ1`. -/
def smallSigma1 (x : Word) : Word := rotr x 17 ^^^ rotr x 19 ^^^ shr x 10

/-- A hash value H0..H7, and the working variables a..h of one block (R216, R219). -/
structure ShaState where
  a : Word
  b : Word
  c : Word
  d : Word
  e : Word
  f : Word
  g : Word
  h : Word
  deriving DecidableEq, Repr

/-- R216: the initial hash value. -/
def shaInitial : ShaState :=
  { a := 0x6a09e667, b := 0xbb67ae85, c := 0x3c6ef372, d := 0xa54ff53a,
    e := 0x510e527f, f := 0x9b05688c, g := 0x1f83d9ab, h := 0x5be0cd19 }

/-- R217: the round constants K_0..K_63. -/
def shaRoundConstants : List Word :=
  [0x428a2f98, 0x71374491, 0xb5c0fbcf, 0xe9b5dba5, 0x3956c25b, 0x59f111f1, 0x923f82a4, 0xab1c5ed5] ++
  [0xd807aa98, 0x12835b01, 0x243185be, 0x550c7dc3, 0x72be5d74, 0x80deb1fe, 0x9bdc06a7, 0xc19bf174] ++
  [0xe49b69c1, 0xefbe4786, 0x0fc19dc6, 0x240ca1cc, 0x2de92c6f, 0x4a7484aa, 0x5cb0a9dc, 0x76f988da] ++
  [0x983e5152, 0xa831c66d, 0xb00327c8, 0xbf597fc7, 0xc6e00bf3, 0xd5a79147, 0x06ca6351, 0x14292967] ++
  [0x27b70a85, 0x2e1b2138, 0x4d2c6dfc, 0x53380d13, 0x650a7354, 0x766a0abb, 0x81c2c92e, 0x92722c85] ++
  [0xa2bfe8a1, 0xa81a664b, 0xc24b8b70, 0xc76c51a3, 0xd192e819, 0xd6990624, 0xf40e3585, 0x106aa070] ++
  [0x19a4c116, 0x1e376c08, 0x2748774c, 0x34b0bcb5, 0x391c0cb3, 0x4ed8aa4a, 0x5b9cca4f, 0x682e6ff3] ++
  [0x748f82ee, 0x78a5636f, 0x84c87814, 0x8cc70208, 0x90befffa, 0xa4506ceb, 0xbef9a3f7, 0xc67178f2]

/-- R213: the message length in bits, 64 bits big-endian, as eight bytes. -/
def shaLengthBytes (lenBytes : Nat) : List Byte :=
  (List.range 8).map fun i => BitVec.ofNat 8 ((8 * lenBytes) >>> (8 * (7 - i)))

/-- R213: a 1 bit and seven 0 bits, the least number of zero bytes that makes the total ≡ 56 (mod 64), then the length. -/
def shaPad (m : List Byte) : List Byte :=
  m ++ [0x80] ++ List.replicate ((119 - m.length % 64) % 64) 0 ++ shaLengthBytes m.length

/-- R214: bytes parsed into words, four at a time, first byte most significant. -/
def wordsOfBytes : List Byte → List Word
  | b0 :: b1 :: b2 :: b3 :: rest => wordOfBytes b0 b1 b2 b3 :: wordsOfBytes rest
  | _ => []

/-- R218: `W_t` for t ≥ 16, from the t words `w` before it. -/
def shaNextWord (w : List Word) : Word :=
  smallSigma1 (w.getD (w.length - 2) 0) + w.getD (w.length - 7) 0
    + smallSigma0 (w.getD (w.length - 15) 0) + w.getD (w.length - 16) 0

/-- R218: `k` more words of the message schedule after `w`. -/
def shaExtend : Nat → List Word → List Word
  | 0, w => w
  | k + 1, w => shaExtend k (w ++ [shaNextWord w])

/-- R218: the 64 words W_0..W_63 of one block of 16 words. -/
def shaSchedule (block : List Word) : List Word := shaExtend 48 block

/-- R219: one round, with its constant K_t and schedule word W_t. -/
def shaRound (s : ShaState) (kw : Word × Word) : ShaState :=
  let t1 := s.h + bigSigma1 s.e + shaCh s.e s.f s.g + kw.1 + kw.2
  let t2 := bigSigma0 s.a + shaMaj s.a s.b s.c
  { a := t1 + t2, b := s.a, c := s.b, d := s.c, e := s.d + t1, f := s.e, g := s.f, h := s.g }

/-- R219, R220: the compression of one block of 16 words and the update of the hash value. -/
def shaBlock (hash : ShaState) (block : List Word) : ShaState :=
  let r := (shaRoundConstants.zip (shaSchedule block)).foldl shaRound hash
  { a := hash.a + r.a, b := hash.b + r.b, c := hash.c + r.c, d := hash.d + r.d,
    e := hash.e + r.e, f := hash.f + r.f, g := hash.g + r.g, h := hash.h + r.h }

/-- R221: `n` blocks of 16 words, one after the other. -/
def shaBlocks : Nat → List Word → ShaState → ShaState
  | 0, _, hash => hash
  | n + 1, ws, hash => shaBlocks n (ws.drop 16) (shaBlock hash (ws.take 16))

/-- R221: the final hash value of a message. -/
def shaHash (m : List Byte) : ShaState :=
  let ws := wordsOfBytes (shaPad m)
  shaBlocks (ws.length / 16) ws shaInitial

/-- R222: H0..H7 in order. -/
def ShaState.words (s : ShaState) : Vector Word 8 := #v[s.a, s.b, s.c, s.d, s.e, s.f, s.g, s.h]

/-- The 32 bytes of eight words in order, each word big-endian (R222). -/
def bytesOfWords (ws : Vector Word 8) : Vector Byte 32 :=
  Vector.ofFn fun i => byteOfWord ws[i.val / 4] (i.val % 4)

/-- R211, R222: `SHA256(m)`, the 32-byte digest of a byte string. -/
def sha256 (m : List Byte) : Vector Byte 32 := bytesOfWords (shaHash m).words

end Sys2Proof.Machine
end

