-- ==== Sys2Proof/Machine/Operands.lean ====
section
/-! DEFINITION. The data formats of 30_encoding.md: entropy bytes in ENT (R105), digest words (R106), checksum (R108),
packed stream (R109), slicing (R110) and reassembly (R111), and the permitted sets (R8, R130, R181). -/

namespace Sys2Proof.Machine

/-- R130: `valid_ent_len`, on the whole 32-bit value. -/
def validEntLen (len : Word) : Bool := len.toNat ∈ [16, 20, 24, 28, 32]

/-- R181: the word-count check, on the whole 32-bit value. -/
def validWordCount (n : Word) : Bool := n.toNat ∈ [12, 15, 18, 21, 24]

/-- R105: `ENT_BYTE(i)`. -/
def entByte (ent : Vector Word 8) (i : Fin 32) : Byte := byteOfWord ent[i.val / 4] (i.val % 4)

/-- R105: the entropy value, `ENT_BYTE(0) .. ENT_BYTE(len - 1)`, for len ≤ 32. -/
def entropyBytes (ent : Vector Word 8) (len : Nat) : List Byte :=
  ((List.finRange 32).take len).map (entByte ent)

/-- R105, R185: the buffer that holds the bytes `e` from position 0 on and zero after them. -/
def packEntropy (e : List Byte) : Vector Word 8 :=
  Vector.ofFn fun k =>
    wordOfBytes (e.getD (4 * k.val) 0) (e.getD (4 * k.val + 1) 0) (e.getD (4 * k.val + 2) 0) (e.getD (4 * k.val + 3) 0)

/-- R106: the DIGEST registers that hold a digest. -/
def digestWords (d : Vector Byte 32) : Vector Word 8 :=
  Vector.ofFn fun k => wordOfBytes d[4 * k.val] d[4 * k.val + 1] d[4 * k.val + 2] d[4 * k.val + 3]

/-- R108: `checksum(E) = SHA256(E)[0] >> (8 - CS)`, with CS = L/4. -/
def checksum (e : List Byte) : Byte := (sha256 e)[0] >>> (8 - e.length / 4)

/-- R110: `int_be(E)`. -/
def intBE (e : List Byte) : Nat := e.foldl (fun v b => v * 256 + b.toNat) 0

/-- R110, R150: the packed stream as a number, `V = int_be(E) * 2^CS + checksum(E)`. -/
def packedStream (e : List Byte) : Nat := intBE e * 2 ^ (e.length / 4) + (checksum e).toNat

/-- R110, R150: the group at position `j` of a stream of `n` groups, `(V >> 11*(n-1-j)) & 0x7FF`. -/
def groupAt (v n j : Nat) : Nat := (v >>> (11 * (n - 1 - j))) &&& 0x7FF

/-- R150: IDX[0..23] after ENCODE: the `n` groups, then zeros. -/
def indexBuffer (v n : Nat) : Vector Word 24 :=
  Vector.ofFn fun j => if j.val < n then BitVec.ofNat 32 (groupAt v n j.val) else 0

/-- R180: the indices DECODE reads, IDX[0] to IDX[n-1]. -/
def indexList (idx : Vector Word 24) (n : Nat) : List Word := idx.toList.take n

/-- R183: the lowest position whose index names no word. -/
def firstUnknown (indices : List Word) : Option Nat := indices.findIdx? fun i => 2047 < i.toNat

/-- R180: `V <- (V << 11) | IDX[j][10:0]` over the indices in order. -/
def joinGroups (indices : List Word) : Nat :=
  indices.foldl (fun v i => (v <<< 11) ||| (i.extractLsb' 0 11).toNat) 0

/-- R180: the `len` bytes of `x`, big-endian. -/
def bytesBE (len x : Nat) : List Byte :=
  (List.range len).map fun q => BitVec.ofNat 8 (x >>> (8 * (len - 1 - q)))

/-- R180: the candidate entropy of a stream of `n` groups: `V >> CS` as L = 4n/3 bytes. -/
def candidateEntropy (v n : Nat) : List Byte := bytesBE (4 * n / 3) (v >>> (n / 3))

/-- R180: the checksum extracted from a stream of `n` groups, `V & (2^CS - 1)`. -/
def foundChecksum (v n : Nat) : Byte := BitVec.ofNat 8 (v &&& (2 ^ (n / 3) - 1))

/-- R184, R302: `(expected << 8) | found`. -/
def mismatchInfo (expected found : Byte) : Word := (expected.setWidth 32 <<< 8) ||| found.setWidth 32

/-- R13: bit `k` of a byte string, MSB-first per byte. -/
def byteStringBit (e : List Byte) (k : Nat) : Bool := (e.getD (k / 8) 0).getLsbD (7 - k % 8)

/-- R109: bit `k` of the packed stream of `e`: the entropy bits, then the checksum bits. -/
def streamBit (e : List Byte) (k : Nat) : Bool :=
  if k < 8 * e.length then byteStringBit e k
  else (checksum e).getLsbD (e.length / 4 - 1 - (k - 8 * e.length))

/-- R111: bit `k` of the stream of an index sequence, each index an 11-bit group, MSB-first, in word order. -/
def indexStreamBit (indices : List Word) (k : Nat) : Bool := (indices.getD (k / 11) 0).getLsbD (10 - k % 11)

/-- R13: `bits_to_uint(s, p, w)`. -/
def bitsToUint (s : Nat → Bool) (p : Nat) : Nat → Nat
  | 0 => 0
  | w + 1 => 2 * bitsToUint s p w + (s (p + w)).toNat

end Sys2Proof.Machine
end

