-- ==== Sys2Proof/Machine/Decoder.lean ====
section
/-! DEFINITION. DECODE, the Mnemonic Decoder with its three checks in order (42_decode.md). -/

namespace Sys2Proof.Machine

/-- R180, R185: the registers DECODE writes on success: ENT (zero after the L bytes), ENT_LEN = L and CSUM. -/
def writeEntropy (e : List Byte) (found : Byte) (s : State) : State :=
  { s with ent := packEntropy e, entLen := BitVec.ofNat 32 e.length, csum := found }

/-- R180 steps 4 to 6: DECODE once the `n` indices are known to be good: split the stream, check the checksum. -/
def decodeStream (v n : Nat) (s : State) : State :=
  let e := candidateEntropy v n
  let found := foundChecksum v n
  if checksum e = found then completeOk (writeEntropy e found s)
  else raiseError .checksumMismatch (mismatchInfo (checksum e) found) s

/-- R180: DECODE. -/
def execDecode (s : State) : Host.Outcome State Fault Refusal :=
  if validWordCount s.wcount then
    match firstUnknown (indexList s.idx s.wcount.toNat) with
    | some j => .next (raiseError .unknownWord (BitVec.ofNat 32 j) s)
    | none => .next (decodeStream (joinGroups (indexList s.idx s.wcount.toNat)) s.wcount.toNat s)
  else .next (raiseError .invalidWordCount s.wcount s)

end Sys2Proof.Machine
end

