-- ==== Sys2Proof/Machine/Encoder.lean ====
section
/-! DEFINITION. ENCODE, the Mnemonic Encoder (41_encode.md). -/

namespace Sys2Proof.Machine

/-- R150: the registers ENCODE writes for the entropy `e`: IDX, WCOUNT = 3L/4 and CSUM. -/
def writeMnemonic (e : List Byte) (s : State) : State :=
  { s with
    idx := indexBuffer (packedStream e) (3 * e.length / 4)
    wcount := BitVec.ofNat 32 (3 * e.length / 4)
    csum := checksum e }

/-- R150: ENCODE. -/
def execEncode (s : State) : Host.Outcome State Fault Refusal :=
  if validEntLen s.entLen then .next (completeOk (writeMnemonic (entropyBytes s.ent s.entLen.toNat) s))
  else .next (raiseError .invalidEntropyLength s.entLen s)

end Sys2Proof.Machine
end

