-- ==== Sys2Proof/Machine/Hash.lean ====
section
/-! DEFINITION. HASH, the SHA-256 primitive as a command (43_hash.md). -/

namespace Sys2Proof.Machine

/-- R210: HASH of the first ENT_LEN bytes of the buffer, any length 0 to 32. -/
def execHash (s : State) : Host.Outcome State Fault Refusal :=
  if s.entLen.toNat ≤ 32 then
    .next (completeOk { s with digest := digestWords (sha256 (entropyBytes s.ent s.entLen.toNat)) })
  else .next (raiseError .hashLength s.entLen s)

end Sys2Proof.Machine
end

