-- ==== Sys2Proof/Machine/Validator.lean ====
section
/-! DEFINITION. VALIDATE, the Entropy Validator (40_validate.md). -/

namespace Sys2Proof.Machine

/-- R131: VALIDATE checks ENT_LEN alone. -/
def execValidate (s : State) : Host.Outcome State Fault Refusal :=
  if validEntLen s.entLen then .next (completeOk s)
  else .next (raiseError .invalidEntropyLength s.entLen s)

end Sys2Proof.Machine
end

