-- ==== Sys2Proof/Machine/Dispatch.lean ====
section
/-! DEFINITION. The meaning of every command: one arm per row of the opcode table. -/

namespace Sys2Proof.Machine

def exec (i : Instr) (s : State) : Host.Outcome State Fault Refusal :=
  match i with
  | .validate => Sys2Proof.Machine.execValidate s
  | .encode => Sys2Proof.Machine.execEncode s
  | .decode => Sys2Proof.Machine.execDecode s
  | .hash => Sys2Proof.Machine.execHash s
  | .clear => Sys2Proof.Machine.execClear s
  -- R255 reads PEND, which is the word the step decoded
  | .illegal _ => Sys2Proof.Machine.execIllegal s

end Sys2Proof.Machine
end

