-- ==== Sys2Proof/Machine/Step.lean ====
section
/-! DEFINITION. One step of the machine: the next event of the agenda (20_memory.md R83, 44_control.md R252). -/

namespace Sys2Proof.Machine

/-- R252: the completion step: the command that PEND decodes to (R102). -/
def complete (s : State) : Host.Outcome State Fault Refusal := exec (decode s.pend) s

/-- A moment for the completion step, which is enabled exactly when BUSY = 1 (R252); an idle block waits (R47). -/
def completeIfBusy (s : State) : Host.Outcome State Fault Refusal :=
  if s.statusBusy then complete s else .next s

/-- One step: the head of the agenda is taken off and happens. With no event left, a busy block completes (R350) and an
idle block waits (R47, log 6). -/
def step (s : State) : Host.Outcome State Fault Refusal :=
  match s.agenda with
  | [] => completeIfBusy s
  | .completion :: rest => completeIfBusy { s with agenda := rest }
  | .bus r :: rest => .next (busRequest r { s with agenda := rest })
  | .reset :: rest => .next (applyReset { s with agenda := rest })

/-- The command word `w` issued (R250) and about to complete: the block fetches its command from PEND while BUSY = 1,
and the very next event is the completion (log 2). -/
def State.withFetchWord (s : State) (nbits w : Nat) : State :=
  { issue (BitVec.ofNat 32 (w % 2 ^ nbits)) s with agenda := .completion :: s.agenda }

end Sys2Proof.Machine
end

