-- ==== Sys2Proof/Machine/HostOps.lean ====
section
/-! DEFINITION. The host program notation of 30_encoding.md R112 and its pseudo-operations (R113), as agendas. -/

namespace Sys2Proof.Machine

/-- R15, R112: `MemWrite(addr, 4, v)` at a bus address. -/
def memWrite (addr : Nat) (v : Word) : Event :=
  .bus { write := true, addr := decodeAddress addr, size := .word, wdata := v }

/-- R15, R112: `MemRead(addr, 4)` at a bus address. -/
def memRead (addr : Nat) : Event :=
  .bus { write := false, addr := decodeAddress addr, size := .word, wdata := 0 }

/-- R112: `WR off, v`. -/
def wr (off : BitVec 8) (v : Word) : Event :=
  .bus { write := true, addr := .window off, size := .word, wdata := v }

/-- R112: `RD off`. -/
def rd (off : BitVec 8) : Event :=
  .bus { write := false, addr := .window off, size := .word, wdata := 0 }

/-- R113: `ACK`, clear DONE and OVR. -/
def ack : List Event := [wr 0x08 0x0000000A]

/-- R113: `POLL`, with the completion after `polls` reads of STATUS that still see BUSY; every number of them is admitted. -/
def poll (polls : Nat) : List Event := List.replicate polls (rd 0x08) ++ [.completion, rd 0x08]

/-- R113: `RUN op`, that is `WR CMD, op` then `POLL`. -/
def run (op : Word) (polls : Nat) : List Event := wr 0x04 op :: poll polls

/-- R112: `WR off, v` at an offset that a pseudo-operation computes. DEDUCED from R112 and R71 (log 18): beyond 0xFF the address
`BASE + off` is outside the window, and the block does not see the write. -/
def wrAt (off : Nat) (v : Word) : Event :=
  if off < 256 then wr (BitVec.ofNat 8 off) v
  else .bus { write := true, addr := .elsewhere (Config.base + off), size := .word, wdata := v }

/-- R113: `LOAD_ENT b`: ENT_LEN, then the words of the buffer the bytes reach into, bytes beyond them 0. DESIGN CHOICE (log 18):
R113 gives no bound on the length; past 32 bytes the writes go on at the offsets the formula gives, and ENT_LEN gets the length
modulo 2^32. -/
def loadEnt (b : List Byte) : List Event :=
  wr 0x14 (BitVec.ofNat 32 b.length) ::
    (List.range ((b.length + 3) / 4)).map fun k =>
      wrAt (0x20 + 4 * k)
        (wordOfBytes (b.getD (4 * k) 0) (b.getD (4 * k + 1) 0) (b.getD (4 * k + 2) 0) (b.getD (4 * k + 3) 0))

/-- R113: `LOAD_IDX i`: WCOUNT, then the indices. DESIGN CHOICE (log 18): R113 gives no bound on the count; past 24 indices the
writes go on at the offsets the formula gives, and WCOUNT gets the count modulo 2^32. -/
def loadIdx (i : List Word) : List Event :=
  wr 0x18 (BitVec.ofNat 32 i.length) ::
    (List.range i.length).map fun j => wrAt (0x60 + 4 * j) (i.getD j 0)

end Sys2Proof.Machine
end

