-- ==== Sys2Proof/Machine/Run.lean ====
section
/-! DEFINITION. Several steps in a row: a run of the block over its agenda (20_memory.md R83). -/

namespace Sys2Proof.Machine

/-- `k` steps; a fault or a refusal would end the run. It is the host interface's `Host.Core.run` of this machine, over the
state type by its own name (Laws/Bus.lean says so). -/
def runSteps : Nat → State → Host.Outcome State Fault Refusal
  | 0, s => .next s
  | k + 1, s =>
    match step s with
    | .next t => runSteps k t
    | .fault r => .fault r
    | .refused r => .refused r

end Sys2Proof.Machine
end

