-- ==== Sys2Proof/Machine/HostWords.lean ====
section
/-! DEFINITION. The host-side word layer at its boundary (48_host_words.md R270 to R276). It is software above the register
window, no part of the block (00_scope.md R7): it writes agendas, lets the block step through them, and reads registers of the
idle block (log 16). -/

namespace Sys2Proof.Machine

/-- What counts as an upper-case character and as whitespace. R270 and R275 use both words and the spec defines neither (91 N12: no
word on Unicode), so this is a parameter: any reading is admitted for control and non-ASCII characters. DESIGN CHOICE (log 17): among
U+0020 to U+007E upper case is A to Z and whitespace is the space alone; tab and newline are whitespace. -/
structure CharReading where
  upper : Char → Bool
  white : Char → Bool
  upper_printable : ∀ c, 0x20 ≤ c.toNat → c.toNat ≤ 0x7E → (upper c = true ↔ 0x41 ≤ c.toNat ∧ c.toNat ≤ 0x5A)
  white_printable : ∀ c, 0x20 ≤ c.toNat → c.toNat ≤ 0x7E → (white c = true ↔ c.toNat = 0x20)
  white_tab : white (Char.ofNat 0x09) = true
  white_newline : white (Char.ofNat 0x0A) = true

/-- A string without an upper-case character and without whitespace, under a reading. DESIGN CHOICE (log 17): this is what R270's
"lowercase, whitespace-free" means here; the empty string is one. -/
def CharReading.lowercaseWord (R : CharReading) (w : String) : Prop :=
  ∀ c ∈ w.toList, R.upper c = false ∧ R.white c = false

/-- R17, R270: the wordlist W, a parameter: 2048 distinct, lowercase, whitespace-free strings, two of which are known. Which
characters are upper case or whitespace is left to the host's reading (log 17). -/
structure Wordlist where
  reading : CharReading
  word : Fin 2048 → String
  injective : ∀ i j, word i = word j → i = j
  lowercase : ∀ i, reading.lowercaseWord (word i)
  word_zero : word 0 = "abandon"
  word_three : word 3 = "about"

/-- R272, R273, R276: what the host's functions fail with. -/
inductive HostError where
  | invalidEntropyLength (len : Word)
  | invalidWordCount (count : Nat)
  | unknownWord (word : String) (position : Nat)
  | checksumMismatch
  | qrDecodeError
  deriving DecidableEq, Repr

/-- R271: `W⁻¹(w)`, by exact string equality. Irreducible, so that nothing unfolds the search by accident. -/
@[irreducible] def Wordlist.indexOf (W : Wordlist) (w : String) : Option (Fin 2048) :=
  (List.finRange 2048).find? fun i => W.word i == w

/-- The block run through a host's whole script, with no other master (R322): one step for each event. -/
def runScript (script : List Event) (s : State) : Host.Outcome State Fault Refusal :=
  runSteps script.length { s with agenda := script }

/-- R272: the operand writes of `host_encode`: LOAD_ENT, or for more than 32 bytes ENT_LEN alone (a length that 32 bits
cannot hold is written as the greatest value they hold, log 16). -/
def hostEncodeOperands (e : List Byte) : List Event :=
  if e.length ≤ 32 then loadEnt e else [wr 0x14 (BitVec.ofNat 32 (min e.length (2 ^ 32 - 1)))]

/-- R272: the words of the indices the block left in IDX[0..WCOUNT-1]. -/
def mnemonicWords (W : Wordlist) (t : State) : List String :=
  (indexList t.idx t.wcount.toNat).map fun i => W.word (Fin.ofNat 2048 i.toNat)

/-- R272: what `host_encode` returns once the block is idle again. -/
def hostEncodeAnswer (W : Wordlist) (t : State) : Except HostError (List String) :=
  if t.errCode = 0 then .ok (mnemonicWords W t) else .error (.invalidEntropyLength t.errInfo)

/-- R272: `host_encode(e)`, the answer and the state it leaves, with `polls` busy reads of STATUS while it waits. -/
def hostEncode (W : Wordlist) (polls : Nat) (e : List Byte) (s : State) :
    Host.Outcome (Except HostError (List String) × State) Fault Refusal :=
  match runScript (hostEncodeOperands e ++ run (encode .encode) polls) s with
  | .next t => .next (hostEncodeAnswer W t, t)
  | .fault r => .fault r
  | .refused r => .refused r

/-- R273 step 2: the index of every word, in increasing position from `p`, or the first word without one. -/
def lookupWords (W : Wordlist) : List String → Nat → Except HostError (List Word)
  | [], _ => .ok []
  | w :: ws, p =>
    match W.indexOf w with
    | none => .error (.unknownWord w p)
    | some i =>
      match lookupWords W ws (p + 1) with
      | .ok is => .ok (BitVec.ofNat 32 i.val :: is)
      | .error e => .error e

/-- R273: what `host_decode` returns once the block is idle again. -/
def hostDecodeAnswer (t : State) : Except HostError (List Byte) :=
  if t.errCode = 4 then .error .checksumMismatch else .ok (entropyBytes t.ent t.entLen.toNat)

/-- R273: `host_decode(words)`, the answer and the state it leaves. -/
def hostDecode (W : Wordlist) (polls : Nat) (words : List String) (s : State) :
    Host.Outcome (Except HostError (List Byte) × State) Fault Refusal :=
  if words.length ∈ [12, 15, 18, 21, 24] then
    match lookupWords W words 0 with
    | .error e => .next (.error e, s)
    | .ok indices =>
      match runScript (loadIdx indices ++ run (encode .decode) polls) s with
      | .next t => .next (hostDecodeAnswer t, t)
      | .fault r => .fault r
      | .refused r => .refused r
  else .next (.error (.invalidWordCount words.length), s)

/-- R275: the canonical text form of a mnemonic: its words joined by one U+0020 space. -/
def mnemonicText (words : List String) : String := " ".intercalate words

/-- R275: MNEMONIC_TEXT_PARSER, open but for what it does on a canonical text: words that are not empty and have no upper-case
character and no whitespace, joined by single spaces. Texts with several, leading or trailing spaces, other whitespace or upper case
are left to the host (log 16, log 17). -/
structure TextParser (R : CharReading) where
  parse : String → List String
  canonical : ∀ words : List String, words ≠ [] → (∀ w ∈ words, w ≠ "" ∧ R.lowercaseWord w) →
    parse (mnemonicText words) = words

/-- R273, R275: `host_decode` of a mnemonic's text. -/
def hostDecodeText (W : Wordlist) (parser : TextParser W.reading) (polls : Nat) (text : String) (s : State) :
    Host.Outcome (Except HostError (List Byte) × State) Fault Refusal :=
  hostDecode W polls (parser.parse text) s

/-- R276: bytes from a QR decoder are raw entropy for `host_encode`; its error (`none`) never reaches the block. -/
def hostEncodeQr (W : Wordlist) (polls : Nat) (decoded : Option (List Byte)) (s : State) :
    Host.Outcome (Except HostError (List String) × State) Fault Refusal :=
  match decoded with
  | none => .next (.error .qrDecodeError, s)
  | some e => hostEncode W polls e s

end Sys2Proof.Machine
end

