-- ==== Sys2Proof/Safety.lean ====
section
/-! DEFINITION. What counts as a good state of the block and as a run, in the terms the statements use. -/

namespace Sys2Proof.Machine

/-- While a command runs, DONE is 0 and the error result reads 0 (44_control.md R250; 70_reset_and_hazards.md R345, R346). -/
abbrev BusyResultsClear (s : State) : Prop :=
  s.statusBusy = true → s.statusDone = false ∧ s.errCode = 0 ∧ s.errInfo = 0

/-- The error result is one that R301 and R302 allow for the command in PEND: the command that raises the code, and the
ERR_INFO the code has. Codes 5 and 8 to 15 do not occur (93 U4). -/
abbrev ErrorResultLegal (s : State) : Prop :=
  (s.errCode = 0 ∧ s.errInfo = 0) ∨
  (s.errCode = 1 ∧ (decode s.pend = .validate ∨ decode s.pend = .encode) ∧ validEntLen s.errInfo = false) ∨
  (s.errCode = 2 ∧ decode s.pend = .decode ∧ validWordCount s.errInfo = false) ∨
  (s.errCode = 3 ∧ decode s.pend = .decode ∧ s.errInfo.toNat ≤ 23) ∨
  (s.errCode = 4 ∧ decode s.pend = .decode ∧ s.errInfo.toNat < 2 ^ 16) ∨
  (s.errCode = 6 ∧ decode s.pend = .illegal s.pend ∧ s.errInfo = s.pend) ∨
  (s.errCode = 7 ∧ decode s.pend = .hash ∧ 32 < s.errInfo.toNat)

/-- The invariant of the block: it holds at reset and every step keeps it. -/
abbrev Inv (s : State) : Prop := BusyResultsClear s ∧ ErrorResultLegal s

/-- A run of the block: finitely many steps (20_memory.md R83). -/
inductive Steps : State → State → Prop where
  | refl (s : State) : Steps s s
  | tail {s t u : State} (h : Steps s t) (hs : step t = .next u) : Steps s u

/-- A run every state of which, the first and the last among them, is busy: one command in flight (R251). -/
inductive BusySteps : State → State → Prop where
  | refl (s : State) (h : s.statusBusy = true) : BusySteps s s
  | tail {s t u : State} (h : BusySteps s t) (hs : step t = .next u) (hb : u.statusBusy = true) : BusySteps s u

/-- R103, column "reads": the two states hold the same operands of the command. ENT counts up to ENT_LEN bytes and IDX up
to WCOUNT positions (R105, R180). -/
def OperandsAgree (i : Instr) (s₁ s₂ : State) : Prop :=
  match i with
  | .validate => s₁.entLen = s₂.entLen
  | .encode => s₁.entLen = s₂.entLen ∧
      ∀ k : Fin 32, k.val < s₁.entLen.toNat → entByte s₁.ent k = entByte s₂.ent k
  | .decode => s₁.wcount = s₂.wcount ∧ ∀ j : Fin 24, j.val < s₁.wcount.toNat → s₁.idx[j] = s₂.idx[j]
  | .hash => s₁.entLen = s₂.entLen ∧
      ∀ k : Fin 32, k.val < s₁.entLen.toNat → entByte s₁.ent k = entByte s₂.ent k
  | .clear => True
  | .illegal _ => s₁.pend = s₂.pend

/-- R103, column "writes on success": the registers of the command's results are the same in the two states. -/
def ResultRegistersAgree (i : Instr) (t₁ t₂ : State) : Prop :=
  match i with
  | .validate => True
  | .encode => t₁.idx = t₂.idx ∧ t₁.wcount = t₂.wcount ∧ t₁.csum = t₂.csum
  | .decode => t₁.ent = t₂.ent ∧ t₁.entLen = t₂.entLen ∧ t₁.csum = t₂.csum
  | .hash => t₁.digest = t₂.digest
  | .clear => t₁.ent = t₂.ent ∧ t₁.entLen = t₂.entLen ∧ t₁.wcount = t₂.wcount ∧ t₁.idx = t₂.idx ∧
      t₁.digest = t₂.digest ∧ t₁.csum = t₂.csum
  | .illegal _ => True

/-- Whether one step is a completion of a command: BUSY = 1, and the next event is a completion or none is left (R252). -/
def completesNow (s : State) : Bool :=
  s.statusBusy && (s.agenda == [] || s.agenda.head? == some .completion)

end Sys2Proof.Machine
end

