-- ==== Sys2Proof/Certificates/Slice0/Obligations.lean ====
section
/-! DEFINITION. The statements of this row for the provers. `wr off v` and `rd off` are legal bus requests at an offset of the
window (30_encoding.md R112); a statement "with agenda `e :: rest`" is about the step that performs the event `e`. -/

open Sys2Proof Sys2Proof.Machine

/-! ## Reset -/

/-- R340, R341: the reset event, at any moment, also while a command runs. The agenda and the count of free values are the
model's own and stay (log 3). -/
def Obligations.ResetSetsEveryRegisterToZero : Prop :=
  ∀ (s : State) (rest : List Event), s.agenda = .reset :: rest →
    ∃ t, step s = .next t ∧
      t.ctrlIe = false ∧ t.statusBusy = false ∧ t.statusDone = false ∧ t.statusOvr = false ∧ statusWord t = 0 ∧
      t.errCode = 0 ∧ t.errInfo = 0 ∧ t.entLen = 0 ∧ t.wcount = 0 ∧ t.csum = 0 ∧
      (∀ k : Fin 8, t.ent[k] = 0 ∧ t.digest[k] = 0) ∧ (∀ j : Fin 24, t.idx[j] = 0) ∧ t.pend = 0 ∧ t.irq = false ∧
      t.agenda = rest ∧ t.draws = s.draws

/-- R340, R31: the state after reset is the reset state of the rule, and every offset of the window reads 0 in it. -/
def Obligations.ResetStateReadsZeroEverywhere : Prop :=
  State.reset.statusBusy = false ∧ State.reset.pend = 0 ∧ State.reset.irq = false ∧
    ∀ off : BitVec 8, off.toNat % 4 = 0 → registerValue (regAt off) State.reset = 0

/-! ## The step, decoding and the command lifecycle -/

/-- R252, R102: while BUSY = 1 the completion step is `exec` of the decoded PEND; while BUSY = 0 it is not enabled and
changes nothing. The two places where it may be taken are the model's (log 1, log 6). -/
def Obligations.StepRunsDecodedPend : Prop :=
  ∀ s : State,
    (s.statusBusy = true → s.agenda = [] → step s = exec (decode s.pend) s) ∧
    (s.statusBusy = true → ∀ rest, s.agenda = .completion :: rest →
      step s = exec (decode s.pend) { s with agenda := rest }) ∧
    (s.statusBusy = false → s.agenda = [] → step s = .next s) ∧
    (s.statusBusy = false → ∀ rest, s.agenda = .completion :: rest → step s = .next { s with agenda := rest })

/-- The model's choice of how a command word comes to run (log 2): `withFetchWord` issues it and the next step completes it. -/
def Obligations.FetchWordRunsNext : Prop :=
  ∀ (s : State) (w : Word),
    step (s.withFetchWord 32 w.toNat) = exec (decode w) (issue w s)

/-- R300, R73: no event stops the block: every step answers a next state. -/
def Obligations.EveryStepAnswersNext : Prop :=
  (∀ s : State, ∃ t, step s = .next t) ∧ ∀ (i : Instr) (s : State), ∃ t, exec i s = .next t

/-- R101: the words of the opcode map, and some that are none. -/
def Obligations.CommandWordsOfTheMap : Prop :=
  decode 0b00000000000000000000000000000001 = .validate ∧
  decode 0b00000000000000000000000000000010 = .encode ∧
  decode 0b00000000000000000000000000000011 = .decode ∧
  decode 0b00000000000000000000000000000100 = .hash ∧
  decode 0b00000000000000000000000000000101 = .clear ∧
  decode 0b00000000000000000000000000000000 = .illegal 0 ∧
  decode 0b00000000000000000000000000000110 = .illegal 6 ∧
  decode 0b00000000000000000000000000001111 = .illegal 15 ∧
  decode 0b00000000000000000000000000010010 = .illegal 0x12 ∧
  decode 0b11111111111111111111111111111111 = .illegal 0xFFFFFFFF

/-- R102: exactly five words are commands and every other word, told by its fields, is ILLEGAL. -/
def Obligations.ExactlyFiveWordsAreCommands : Prop :=
  ∀ v : Word,
    (decode v = .validate ↔ v = 1) ∧ (decode v = .encode ↔ v = 2) ∧ (decode v = .decode ↔ v = 3) ∧
    (decode v = .hash ↔ v = 4) ∧ (decode v = .clear ↔ v = 5) ∧
    (decode v = .illegal v ↔
      v.extractLsb' 4 28 ≠ 0 ∨ (v.extractLsb' 0 4).toNat = 0 ∨
        (6 ≤ (v.extractLsb' 0 4).toNat ∧ (v.extractLsb' 0 4).toNat ≤ 15)) ∧
    ∀ w, decode v = .illegal w → w = v

/-- R100 to R102: decoding the word of a well-formed instruction gives it back. -/
def Obligations.DecodeOfEncodeIsIdentity : Prop :=
  ∀ i : Instr, WellFormed i → decode (encode i) = i

/-- R102: every word decodes to a well-formed instruction that encodes back to it. -/
def Obligations.EncodeOfDecodeIsIdentity : Prop :=
  ∀ v : Word, WellFormed (decode v) ∧ encode (decode v) = v

/-- R250: the issue, for every word, legal or not; and no issue while BUSY = 1. -/
def Obligations.CommandWriteIssues : Prop :=
  ∀ (s : State) (v : Word) (rest : List Event), s.agenda = wr 0x04 v :: rest →
    (s.statusBusy = false →
      step s = .next { s with
        agenda := rest, pend := v, statusBusy := true, statusDone := false, errCode := 0, errInfo := 0,
        response := some { resp := .okay, rdata := 0 } }) ∧
    (s.statusBusy = true →
      step s = .next { s with
        agenda := rest, statusOvr := true, response := some { resp := .okay, rdata := 0 } })

/-- R87, R251: while one command is in flight nothing changes its word or its operands, nor the result registers. -/
def Obligations.OperandsFrozenWhileBusy : Prop :=
  ∀ s t : State, BusySteps s t →
    t.pend = s.pend ∧ t.entLen = s.entLen ∧ t.wcount = s.wcount ∧ t.ent = s.ent ∧ t.idx = s.idx ∧
      t.csum = s.csum ∧ t.digest = s.digest

/-- R350 over the model's finite agenda (log 1): a busy block is idle again after at most one step more than its agenda
has events. -/
def Obligations.EveryCommandCompletes : Prop :=
  ∀ s : State, s.statusBusy = true →
    ∃ k t, k ≤ s.agenda.length + 1 ∧ runSteps k s = .next t ∧ t.statusBusy = false

/-- R306: a completion and an operand or CMD write, in both orders. Before the completion the write is dropped with OVR;
after it, it has its effect. -/
def Obligations.BothOrdersOfCompletionAndWrite : Prop :=
  ∀ (s u : State) (off : BitVec 8) (v : Word),
    s.statusBusy = true → s.agenda = [] → exec (decode s.pend) s = .next u →
    (off.toNat = 0x04 ∨ off.toNat = 0x14 ∨ off.toNat = 0x18 ∨ (0x20 ≤ off.toNat ∧ off.toNat ≤ 0x3C) ∨
      (0x60 ≤ off.toNat ∧ off.toNat ≤ 0xBC)) → off.toNat % 4 = 0 →
    runSteps 2 { s with agenda := [wr off v, .completion] } =
        .next { u with statusOvr := true, response := some { resp := .okay, rdata := 0 } } ∧
    runSteps 2 { s with agenda := [.completion, wr off v] } =
        .next { storeRegister (regAt off) v u with response := some { resp := .okay, rdata := 0 } }

/-! ## The invariant and rules over all steps -/

/-- The invariant holds at reset. -/
def Obligations.InvariantAtReset : Prop := Inv State.reset

/-- R250, R301, R302, R345: every step keeps the invariant: while a command runs DONE and the error result are clear, and
an error code is one its command may raise, with the ERR_INFO the code has. -/
def Obligations.StepKeepsInvariant : Prop :=
  ∀ s t : State, Inv s → step s = .next t → Inv t

/-- R48: which events set and clear each flag. -/
def Obligations.FlagsChangeOnlyAsListed : Prop :=
  ∀ s t : State, step s = .next t →
    (s.statusBusy = false → t.statusBusy = true → ∃ v rest, s.agenda = wr 0x04 v :: rest) ∧
    (s.statusBusy = true → t.statusBusy = false → completesNow s = true ∨ ∃ rest, s.agenda = .reset :: rest) ∧
    (s.statusDone = false → t.statusDone = true → completesNow s = true) ∧
    (s.statusDone = true → t.statusDone = false →
      (s.statusBusy = false ∧ ∃ v rest, s.agenda = wr 0x04 v :: rest) ∨
      (∃ v rest, s.agenda = wr 0x08 v :: rest ∧ v.getLsbD 1 = true) ∨ ∃ rest, s.agenda = .reset :: rest) ∧
    (s.statusErr = false → t.statusErr = true → completesNow s = true ∧ t.errCode ≠ 0) ∧
    (s.statusErr = true → t.statusErr = false →
      (s.statusBusy = false ∧ ∃ v rest, s.agenda = wr 0x04 v :: rest) ∨
      (completesNow s = true ∧ t.errCode = 0) ∨ ∃ rest, s.agenda = .reset :: rest) ∧
    (s.statusOvr = false → t.statusOvr = true →
      s.statusBusy = true ∧ ∃ off v rest, s.agenda = wr off v :: rest ∧ droppedWhileBusy (regAt off) = true) ∧
    (s.statusOvr = true → t.statusOvr = false →
      (∃ v rest, s.agenda = wr 0x08 v :: rest ∧ v.getLsbD 3 = true) ∨ ∃ rest, s.agenda = .reset :: rest)

/-- R36, R37, R40, R42, R46: the registers no bus write reaches change only at the events their rules list. -/
def Obligations.ResultRegistersChangeOnlyAsListed : Prop :=
  ∀ s t : State, step s = .next t → (∀ rest, s.agenda ≠ .reset :: rest) →
    (t.csum ≠ s.csum → completesNow s = true ∧ t.errCode = 0 ∧
      (decode s.pend = .encode ∨ decode s.pend = .decode ∨ decode s.pend = .clear)) ∧
    (t.digest ≠ s.digest → completesNow s = true ∧ t.errCode = 0 ∧
      (decode s.pend = .hash ∨ decode s.pend = .clear)) ∧
    (t.errCode ≠ s.errCode ∨ t.errInfo ≠ s.errInfo → completesNow s = true ∨
      (s.statusBusy = false ∧ ∃ v rest, s.agenda = wr 0x04 v :: rest)) ∧
    (t.pend ≠ s.pend → s.statusBusy = false ∧ ∃ v rest, s.agenda = wr 0x04 v :: rest)

/-- R49, R310: irq is the level `CTRL.IE & STATUS.DONE`; when it rises and when it falls. -/
def Obligations.IrqIsEnabledDone : Prop :=
  (∀ s : State, s.irq = true ↔ s.ctrlIe = true ∧ s.statusDone = true) ∧
  (∀ s t : State, completesNow s = true → step s = .next t → t.irq = s.ctrlIe) ∧
  (∀ (s t : State) (v : Word) (rest : List Event), s.agenda = wr 0x00 v :: rest → step s = .next t →
    t.irq = (v.getLsbD 0 && s.statusDone)) ∧
  (∀ (s t : State) (v : Word) (rest : List Event), s.agenda = wr 0x08 v :: rest → step s = .next t →
    t.irq = (s.irq && !v.getLsbD 1)) ∧
  (∀ (s t : State) (v : Word) (rest : List Event), s.agenda = wr 0x04 v :: rest → s.statusBusy = false →
    step s = .next t → t.irq = false) ∧
  (∀ s t : State, step s = .next t → s.irq = false → t.irq = true →
    (completesNow s = true ∧ s.ctrlIe = true) ∨
    (s.statusDone = true ∧ ∃ v rest, s.agenda = wr 0x00 v :: rest ∧ v.getLsbD 0 = true)) ∧
  State.reset.irq = false

/-! ## The bus -/

/-- R71: address decoding, and a request outside the window. -/
def Obligations.AddressDecodingSelectsWindow : Prop :=
  Config.base % 256 = 0 ∧
  (∀ addr : Nat, Config.base ≤ addr → addr < Config.base + 256 →
    decodeAddress addr = .window (BitVec.ofNat 8 (addr - Config.base))) ∧
  (∀ addr : Nat, addr < Config.base ∨ Config.base + 256 ≤ addr → decodeAddress addr = .elsewhere addr) ∧
  (∀ (off : BitVec 8) (v : Word),
    memWrite (Config.base + off.toNat) v = wr off v ∧ memRead (Config.base + off.toNat) = rd off) ∧
  ∀ (s : State) (r : Request) (addr : Nat) (rest : List Event),
    s.agenda = .bus r :: rest → r.addr = .elsewhere addr →
    step s = .next { s with agenda := rest, response := none }

/-- R73: an illegal access gets ERROR and 0 and changes no state, whether or not BUSY = 1. -/
def Obligations.IllegalAccessChangesNothing : Prop :=
  ∀ (s : State) (r : Request) (off : BitVec 8) (rest : List Event),
    s.agenda = .bus r :: rest → r.addr = .window off → (r.size ≠ .word ∨ off.toNat % 4 ≠ 0) →
    step s = .next { s with agenda := rest, response := some { resp := .error, rdata := 0 } }

/-- R74, with R31 to R44: what a legal read answers unless R345 makes it unspecified, and that no read changes a register; `draws`
is the model's own count of unspecified reads (log 3). -/
def Obligations.LegalReadAnswersRegister : Prop :=
  ∀ (s : State) (off : BitVec 8) (rest : List Event), s.agenda = rd off :: rest → off.toNat % 4 = 0 →
    ∃ (v : Word) (d : Nat),
      step s = .next { s with agenda := rest, draws := d, response := some { resp := .okay, rdata := v } } ∧
      (s.statusBusy = false ∨ off.toNat < 0x14 ∨ 0xC0 ≤ off.toNat →
        d = s.draws ∧
        (off.toNat = 0x00 → v = if s.ctrlIe then 1 else 0) ∧
        (off.toNat = 0x04 → v = 0) ∧
        (off.toNat = 0x08 → v.toNat = (if s.statusBusy then 1 else 0) + (if s.statusDone then 2 else 0)
          + (if s.errCode ≠ 0 then 4 else 0) + (if s.statusOvr then 8 else 0)) ∧
        (off.toNat = 0x0C → v.toNat = s.errCode.toNat) ∧
        (off.toNat = 0x10 → v = s.errInfo) ∧
        (off.toNat = 0x14 → v = s.entLen) ∧
        (off.toNat = 0x18 → v = s.wcount) ∧
        (off.toNat = 0x1C → v.toNat = s.csum.toNat) ∧
        (∀ k : Fin 8, off.toNat = 0x20 + 4 * k.val → v = s.ent[k]) ∧
        (∀ k : Fin 8, off.toNat = 0x40 + 4 * k.val → v = s.digest[k]) ∧
        (∀ j : Fin 24, off.toNat = 0x60 + 4 * j.val → v = s.idx[j]) ∧
        (0xC0 ≤ off.toNat → v = 0))

/-- R345: a busy read of a BUSY_UNSPECIFIED offset completes with a value the model leaves free (log 3) and changes no register;
the other offsets answer their defined values, ERR_CODE and ERR_INFO 0 in every state the invariant allows. -/
def Obligations.BusyReadIsUnspecified : Prop :=
  ∀ (s : State) (off : BitVec 8) (rest : List Event),
    s.agenda = rd off :: rest → off.toNat % 4 = 0 → s.statusBusy = true →
    (0x14 ≤ off.toNat → off.toNat < 0xC0 →
      step s = .next { s with
        agenda := rest, draws := s.draws + 1,
        response := some { resp := .okay, rdata := Config.busyRead s.draws } }) ∧
    (BusyResultsClear s → off.toNat = 0x0C ∨ off.toNat = 0x10 →
      step s = .next { s with agenda := rest, response := some { resp := .okay, rdata := 0 } })

/-- R75: a legal write while BUSY = 0. -/
def Obligations.IdleWriteStoresRegister : Prop :=
  ∀ (s : State) (off : BitVec 8) (v : Word) (rest : List Event),
    s.agenda = wr off v :: rest → s.statusBusy = false →
    (off.toNat = 0x14 → step s = .next { s with
      agenda := rest, entLen := v, response := some { resp := .okay, rdata := 0 } }) ∧
    (off.toNat = 0x18 → step s = .next { s with
      agenda := rest, wcount := v, response := some { resp := .okay, rdata := 0 } }) ∧
    (∀ k : Fin 8, off.toNat = 0x20 + 4 * k.val → step s = .next { s with
      agenda := rest, ent := s.ent.set k v, response := some { resp := .okay, rdata := 0 } }) ∧
    (∀ j : Fin 24, off.toNat = 0x60 + 4 * j.val → step s = .next { s with
      agenda := rest, idx := s.idx.set j v, response := some { resp := .okay, rdata := 0 } })

/-- R344: the busy rule for writes. -/
def Obligations.BusyRuleDropsOperandWrites : Prop :=
  ∀ (s : State) (off : BitVec 8) (v : Word) (rest : List Event),
    s.agenda = wr off v :: rest → off.toNat % 4 = 0 → s.statusBusy = true →
    (off.toNat = 0x04 ∨ off.toNat = 0x14 ∨ off.toNat = 0x18 ∨ (0x20 ≤ off.toNat ∧ off.toNat ≤ 0x3C) ∨
        (0x60 ≤ off.toNat ∧ off.toNat ≤ 0xBC) →
      step s = .next { s with
        agenda := rest, statusOvr := true, response := some { resp := .okay, rdata := 0 } }) ∧
    (off.toNat = 0x00 → step s = .next { s with
      agenda := rest, ctrlIe := v.getLsbD 0, response := some { resp := .okay, rdata := 0 } }) ∧
    (off.toNat = 0x08 → step s = .next { s with
      agenda := rest, statusDone := s.statusDone && !v.getLsbD 1, statusOvr := s.statusOvr && !v.getLsbD 3,
      response := some { resp := .okay, rdata := 0 } }) ∧
    (off.toNat = 0x0C ∨ off.toNat = 0x10 ∨ off.toNat = 0x1C ∨ (0x40 ≤ off.toNat ∧ off.toNat ≤ 0x5C) ∨
        0xC0 ≤ off.toNat →
      step s = .next { s with agenda := rest, response := some { resp := .okay, rdata := 0 } })

/-- R44, R45: writes to read-only and reserved offsets are ignored, busy or not; reserved offsets read 0. -/
def Obligations.ReadOnlyAndReservedWritesIgnored : Prop :=
  ∀ (s : State) (off : BitVec 8) (v : Word) (rest : List Event), off.toNat % 4 = 0 →
    (s.agenda = wr off v :: rest →
      off.toNat = 0x0C ∨ off.toNat = 0x10 ∨ off.toNat = 0x1C ∨ (0x40 ≤ off.toNat ∧ off.toNat ≤ 0x5C) ∨
        0xC0 ≤ off.toNat →
      step s = .next { s with agenda := rest, response := some { resp := .okay, rdata := 0 } }) ∧
    (s.agenda = rd off :: rest → 0xC0 ≤ off.toNat →
      step s = .next { s with agenda := rest, response := some { resp := .okay, rdata := 0 } })

/-- R35: a write to STATUS clears the bits it names and does nothing else, busy or not. -/
def Obligations.StatusWriteClearsNamedBits : Prop :=
  ∀ (s : State) (v : Word) (rest : List Event), s.agenda = wr 0x08 v :: rest →
    ∃ t, step s = .next t ∧
      t = { s with
        agenda := rest, statusDone := t.statusDone, statusOvr := t.statusOvr,
        response := some { resp := .okay, rdata := 0 } } ∧
      (v.getLsbD 1 = true → t.statusDone = false) ∧ (v.getLsbD 1 = false → t.statusDone = s.statusDone) ∧
      (v.getLsbD 3 = true → t.statusOvr = false) ∧ (v.getLsbD 3 = false → t.statusOvr = s.statusOvr)

/-- R32: CTRL holds IE alone, which lets DONE drive irq; written at once also while BUSY = 1; bits 31:1 read 0. -/
def Obligations.CtrlHoldsInterruptEnable : Prop :=
  State.reset.ctrlIe = false ∧ (∀ s : State, s.irq = if s.ctrlIe then s.statusDone else false) ∧
  ∀ (s : State) (rest : List Event),
    (∀ v : Word, s.agenda = wr 0x00 v :: rest → step s = .next { s with
      agenda := rest, ctrlIe := v.getLsbD 0, response := some { resp := .okay, rdata := 0 } }) ∧
    (s.agenda = rd 0x00 :: rest → step s = .next { s with
      agenda := rest, response := some { resp := .okay, rdata := if s.ctrlIe then 1 else 0 } })

/-- R346: CTRL and STATUS writes are accepted while BUSY = 1; clearing DONE then has no effect. -/
def Obligations.BusyControlWritesAccepted : Prop :=
  ∀ (s : State) (v : Word) (rest : List Event), s.statusBusy = true → BusyResultsClear s →
    (s.agenda = wr 0x00 v :: rest → step s = .next { s with
      agenda := rest, ctrlIe := v.getLsbD 0, response := some { resp := .okay, rdata := 0 } }) ∧
    (s.agenda = wr 0x08 v :: rest → step s = .next { s with
      agenda := rest, statusOvr := s.statusOvr && !v.getLsbD 3, response := some { resp := .okay, rdata := 0 } })

/-- R348: while BUSY = 0 a register written by one transaction reads back in the very next one, as its rule defines it. -/
def Obligations.WriteReadsBackAtOnce : Prop :=
  ∀ (s t : State) (off : BitVec 8) (v : Word) (rest : List Event),
    s.statusBusy = false → s.agenda = wr off v :: rd off :: rest → runSteps 2 s = .next t →
    (off.toNat % 4 = 0 → off.toNat = 0x14 ∨ off.toNat = 0x18 ∨ (0x20 ≤ off.toNat ∧ off.toNat ≤ 0x3C) ∨
        (0x60 ≤ off.toNat ∧ off.toNat ≤ 0xBC) →
      t.response = some { resp := .okay, rdata := v }) ∧
    (off.toNat = 0x00 → t.response = some { resp := .okay, rdata := if v.getLsbD 0 then 1 else 0 }) ∧
    (off.toNat = 0x04 → t.response = some { resp := .okay, rdata := 0 }) ∧
    (off.toNat = 0x08 → t.response = some { resp := .okay, rdata := statusWord (clearStatusBits v s) })

/-! ## Data formats -/

/-- R105, R106: ENT_BYTE, the buffer that holds a byte string, and DIGEST as the SHA-256 words H0..H7. -/
def Obligations.ByteStringsPackBigEndian : Prop :=
  (∀ (ent : Vector Word 8) (i : Fin 32),
    entByte ent i = (ent[i.val / 4]).extractLsb' (24 - 8 * (i.val % 4)) 8) ∧
  (∀ e : List Byte, e.length ≤ 32 →
    entropyBytes (packEntropy e) e.length = e ∧
      ∀ i : Fin 32, entByte (packEntropy e) i = if i.val < e.length then e.getD i.val 0 else 0) ∧
  (∀ (d : Vector Byte 32) (k : Fin 8), (digestWords d)[k] =
    (d[4 * k.val].setWidth 32 <<< 24) ||| (d[4 * k.val + 1].setWidth 32 <<< 16) |||
      (d[4 * k.val + 2].setWidth 32 <<< 8) ||| d[4 * k.val + 3].setWidth 32) ∧
  ∀ m : List Byte, digestWords (sha256 m) = (shaHash m).words

/-- R109, R110: the groups ENCODE writes are the consecutive 11-bit slices of the packed bit stream, MSB-first. -/
def Obligations.GroupsAreStreamSlices : Prop :=
  ∀ (e : List Byte) (j : Nat), e.length ∈ [16, 20, 24, 28, 32] → j < 3 * e.length / 4 →
    8 * e.length + e.length / 4 = 11 * (3 * e.length / 4) ∧
    groupAt (packedStream e) (3 * e.length / 4) j = bitsToUint (streamBit e) (11 * j) 11 ∧
    groupAt (packedStream e) (3 * e.length / 4) j ≤ 2047

/-- R111: the entropy bytes and the checksum DECODE extracts are the slices of the reassembled bit stream, and the number V
is the sum the rule gives. -/
def Obligations.ReassemblyFollowsBitStream : Prop :=
  ∀ is : List Word, is.length ∈ [12, 15, 18, 21, 24] → (∀ i ∈ is, i.toNat ≤ 2047) →
    joinGroups is = ((List.range is.length).map fun j => (is.getD j 0).toNat * 2 ^ (11 * (is.length - 1 - j))).sum ∧
    (candidateEntropy (joinGroups is) is.length).length = 4 * is.length / 3 ∧
    (∀ q, q < 4 * is.length / 3 →
      ((candidateEntropy (joinGroups is) is.length).getD q 0).toNat = bitsToUint (indexStreamBit is) (8 * q) 8) ∧
    intBE (candidateEntropy (joinGroups is) is.length) = joinGroups is >>> (is.length / 3) ∧
    (foundChecksum (joinGroups is) is.length).toNat =
      bitsToUint (indexStreamBit is) (32 * is.length / 3) (is.length / 3)

/-! ## SHA-256 -/

/-- R213: the padding of every message, and its one-block form for at most 55 bytes. -/
def Obligations.PaddingFollowsTheStandard : Prop :=
  ∀ m : List Byte,
    (shaPad m).length % 64 = 0 ∧ (shaPad m).length ≤ m.length + 72 ∧
    (m.length ≤ 55 →
      (shaPad m).length = 64 ∧
      (∀ i, i < m.length → (shaPad m).getD i 0 = m.getD i 0) ∧
      (shaPad m).getD m.length 0 = 0x80 ∧
      (∀ i, m.length < i → i < 56 → (shaPad m).getD i 0 = 0) ∧
      intBE ((shaPad m).drop 56) = 8 * m.length) ∧
    (m.length ≤ 32 →
      ((shaPad m).getD 62 0).toNat = 8 * m.length / 256 ∧ ((shaPad m).getD 63 0).toNat = 8 * m.length % 256)

/-- R218: the message schedule of one block. -/
def Obligations.ScheduleFollowsTheRecurrence : Prop :=
  ∀ block : List Word, block.length = 16 →
    (shaSchedule block).length = 64 ∧
    (∀ t, t < 16 → (shaSchedule block).getD t 0 = block.getD t 0) ∧
    ∀ t, 16 ≤ t → t < 64 → (shaSchedule block).getD t 0 =
      smallSigma1 ((shaSchedule block).getD (t - 2) 0) + (shaSchedule block).getD (t - 7) 0
        + smallSigma0 ((shaSchedule block).getD (t - 15) 0) + (shaSchedule block).getD (t - 16) 0

/-- R213, R214, R221: a message of at most 55 bytes, and so every message of the block, is hashed as one block. -/
def Obligations.ShortMessageIsOneBlock : Prop :=
  ∀ m : List Byte, m.length ≤ 55 →
    (wordsOfBytes (shaPad m)).length = 16 ∧ shaHash m = shaBlock shaInitial (wordsOfBytes (shaPad m))

/-- 95_test_vectors.md section 3: two known answers. -/
def Obligations.Sha256KnownAnswers : Prop :=
  (sha256 []).toList =
    [0xe3, 0xb0, 0xc4, 0x42, 0x98, 0xfc, 0x1c, 0x14, 0x9a, 0xfb, 0xf4, 0xc8, 0x99, 0x6f, 0xb9, 0x24,
     0x27, 0xae, 0x41, 0xe4, 0x64, 0x9b, 0x93, 0x4c, 0xa4, 0x95, 0x99, 0x1b, 0x78, 0x52, 0xb8, 0x55] ∧
  (sha256 [0x61, 0x62, 0x63]).toList =
    [0xba, 0x78, 0x16, 0xbf, 0x8f, 0x01, 0xcf, 0xea, 0x41, 0x41, 0x40, 0xde, 0x5d, 0xae, 0x22, 0x23,
     0xb0, 0x03, 0x61, 0xa3, 0x96, 0x17, 0x7a, 0x9c, 0xb4, 0x10, 0xff, 0x61, 0xf2, 0x00, 0x15, 0xad]

/-! ## The commands -/

/-- R131: VALIDATE. -/
def Obligations.ValidateChecksLengthOnly : Prop :=
  ∀ s : State,
    (s.entLen.toNat ∈ [16, 20, 24, 28, 32] → exec .validate s = .next { s with
      statusBusy := false, statusDone := true, errCode := 0, errInfo := 0 }) ∧
    (s.entLen.toNat ∉ [16, 20, 24, 28, 32] → exec .validate s = .next { s with
      statusBusy := false, statusDone := true, errCode := 1, errInfo := s.entLen })

/-- R132: VALIDATE issued twice with no write between leaves the state it leaves issued once. -/
def Obligations.ValidateIsIdempotent : Prop :=
  ∀ s t : State, s.statusBusy = false →
    runSteps 2 { s with agenda := [wr 0x04 1, .completion] } = .next t →
    runSteps 4 { s with agenda := [wr 0x04 1, .completion, wr 0x04 1, .completion] } = .next t

/-- R150: ENCODE, its results by the rule's pseudocode, its error, and what it leaves alone. -/
def Obligations.EncodeWritesIndicesCountAndChecksum : Prop :=
  ∀ (s : State) (L CS n V : Nat) (E : List Byte) (cs : Byte),
    L = s.entLen.toNat → CS = L / 4 → n = 3 * L / 4 →
    E = (List.finRange 32).filterMap (fun i => if i.val < L then some (entByte s.ent i) else none) →
    cs = (sha256 E)[0] >>> (8 - CS) → V = intBE E * 2 ^ CS + cs.toNat →
    (L ∈ [16, 20, 24, 28, 32] → ∃ t, exec .encode s = .next t ∧
      t = { s with
        idx := t.idx, wcount := BitVec.ofNat 32 n, csum := cs,
        statusBusy := false, statusDone := true, errCode := 0, errInfo := 0 } ∧
      ∀ j : Fin 24, t.idx[j] =
        if j.val < n then BitVec.ofNat 32 ((V >>> (11 * (n - 1 - j.val))) &&& 0x7FF) else 0) ∧
    (L ∉ [16, 20, 24, 28, 32] → exec .encode s = .next { s with
      statusBusy := false, statusDone := true, errCode := 1, errInfo := s.entLen })

/-- R151: the number of groups ENCODE writes, and that the positions after them are zero (R150). -/
def Obligations.EncodeGroupCountByTable : Prop :=
  ∀ s t : State, exec .encode s = .next t → t.errCode = 0 →
    ((s.entLen = 16 ∧ t.wcount = 12) ∨ (s.entLen = 20 ∧ t.wcount = 15) ∨ (s.entLen = 24 ∧ t.wcount = 18) ∨
      (s.entLen = 28 ∧ t.wcount = 21) ∨ (s.entLen = 32 ∧ t.wcount = 24)) ∧
    ∀ j : Fin 24, (t.idx[j]).toNat ≤ 2047 ∧ (t.wcount.toNat ≤ j.val → t.idx[j] = 0)

/-- R152: ENCODE is a function of ENT_LEN and ENT_BYTE(0..ENT_LEN-1) alone. -/
def Obligations.EncodeIsDeterministic : Prop :=
  ∀ s₁ s₂ t₁ t₂ : State, s₁.entLen = s₂.entLen →
    (∀ i : Fin 32, i.val < s₁.entLen.toNat → entByte s₁.ent i = entByte s₂.ent i) →
    exec .encode s₁ = .next t₁ → exec .encode s₂ = .next t₂ →
    t₁.errCode = t₂.errCode ∧ t₁.errInfo = t₂.errInfo ∧
      (t₁.errCode = 0 → t₁.idx = t₂.idx ∧ t₁.wcount = t₂.wcount ∧ t₁.csum = t₂.csum)

/-- R181: an invalid word count fails first, whatever the indices are (R305). -/
def Obligations.DecodeRejectsWordCount : Prop :=
  ∀ s : State, s.wcount.toNat ∉ [12, 15, 18, 21, 24] →
    exec .decode s = .next { s with statusBusy := false, statusDone := true, errCode := 2, errInfo := s.wcount }

/-- R183: the lowest position whose index is greater than 2047 is reported, before any checksum (R305). -/
def Obligations.DecodeReportsLowestUnknownWord : Prop :=
  ∀ (s : State) (j : Fin 24), s.wcount.toNat ∈ [12, 15, 18, 21, 24] → j.val < s.wcount.toNat →
    2047 < (s.idx[j]).toNat → (∀ k : Fin 24, k.val < j.val → (s.idx[k]).toNat ≤ 2047) →
    exec .decode s = .next { s with
      statusBusy := false, statusDone := true, errCode := 3, errInfo := BitVec.ofNat 32 j.val }

/-- R180 steps 3 to 6, R182, R184, R185: the stream, its split, the checksum, success and mismatch. -/
def Obligations.DecodeVerifiesChecksum : Prop :=
  ∀ (s : State) (n CS L V : Nat) (E : List Byte) (found expected : Byte),
    n = s.wcount.toNat → n ∈ [12, 15, 18, 21, 24] →
    (∀ j : Fin 24, j.val < n → (s.idx[j]).toNat ≤ 2047) →
    CS = n / 3 → L = 4 * n / 3 →
    V = ((List.finRange 24).map fun j =>
      if j.val < n then (s.idx[j]).toNat * 2 ^ (11 * (n - 1 - j.val)) else 0).sum →
    E = (List.range L).map (fun q => BitVec.ofNat 8 ((V >>> CS) >>> (8 * (L - 1 - q)))) →
    found = BitVec.ofNat 8 (V &&& (2 ^ CS - 1)) → expected = (sha256 E)[0] >>> (8 - CS) →
    (expected = found → ∃ t, exec .decode s = .next t ∧
      t = { s with
        ent := t.ent, entLen := BitVec.ofNat 32 L, csum := found,
        statusBusy := false, statusDone := true, errCode := 0, errInfo := 0 } ∧
      ∀ i : Fin 32, entByte t.ent i = if i.val < L then E.getD i.val 0 else 0) ∧
    (expected ≠ found → exec .decode s = .next { s with
      statusBusy := false, statusDone := true, errCode := 4,
      errInfo := (expected.setWidth 32 <<< 8) ||| found.setWidth 32 })

/-- R187: ENCODE, then DECODE with no write between, both succeed and give the entropy back. -/
def Obligations.DecodeInvertsEncode : Prop :=
  ∀ s : State, s.statusBusy = false → s.entLen.toNat ∈ [16, 20, 24, 28, 32] →
    ∃ t u,
      runSteps 2 { s with agenda := [wr 0x04 2, .completion] } = .next t ∧ t.errCode = 0 ∧
      runSteps 2 { t with agenda := [wr 0x04 3, .completion] } = .next u ∧ u.errCode = 0 ∧
      (∀ i : Fin 32, entByte u.ent i = if i.val < s.entLen.toNat then entByte s.ent i else 0) ∧
      u.entLen = s.entLen ∧ u.csum = checksum (entropyBytes s.ent s.entLen.toNat)

/-- R188: DECODE accepts a sequence of indices exactly when it is what ENCODE makes of the entropy DECODE extracts, and two
accepted sequences with the same entropy are the same. -/
def Obligations.DecodeAcceptsExactlyTheImage : Prop :=
  (∀ (s : State) (E : List Byte), s.wcount.toNat ∈ [12, 15, 18, 21, 24] →
    (∀ j : Fin 24, j.val < s.wcount.toNat → (s.idx[j]).toNat ≤ 2047) →
    E = candidateEntropy (joinGroups (indexList s.idx s.wcount.toNat)) s.wcount.toNat →
    ((∃ u, exec .decode s = .next u ∧ u.errCode = 0) ↔
      ∃ v, exec .encode { s with ent := packEntropy E, entLen := BitVec.ofNat 32 E.length } = .next v ∧
        v.errCode = 0 ∧ v.wcount = s.wcount ∧ ∀ j : Fin 24, j.val < s.wcount.toNat → v.idx[j] = s.idx[j])) ∧
  ∀ s₁ s₂ u₁ u₂ : State, exec .decode s₁ = .next u₁ → exec .decode s₂ = .next u₂ →
    u₁.errCode = 0 → u₂.errCode = 0 → u₁.ent = u₂.ent → u₁.entLen = u₂.entLen →
    s₁.wcount = s₂.wcount ∧ ∀ j : Fin 24, j.val < s₁.wcount.toNat → s₁.idx[j] = s₂.idx[j]

/-- R189, its first two cases: one index of an accepted sequence changed. A value above 2047 is an unknown word at its
position; a change of checksum bits alone is always a checksum mismatch. -/
def Obligations.ChangedIndexRejected : Prop :=
  ∀ (s t : State) (j : Fin 24) (v : Word), exec .decode s = .next t → t.errCode = 0 → j.val < s.wcount.toNat →
    (2047 < v.toNat → exec .decode { s with idx := s.idx.set j v } = .next { s with
      idx := s.idx.set j v, statusBusy := false, statusDone := true, errCode := 3,
      errInfo := BitVec.ofNat 32 j.val }) ∧
    (v.toNat ≤ 2047 → v ≠ s.idx[j] → j.val + 1 = s.wcount.toNat →
      v >>> (s.wcount.toNat / 3) = s.idx[j] >>> (s.wcount.toNat / 3) →
      ∃ u, exec .decode { s with idx := s.idx.set j v } = .next u ∧ u.errCode = 4)

/-- R210: HASH, its digest words, its error, and what it leaves alone. -/
def Obligations.HashWritesDigestWords : Prop :=
  ∀ (s : State) (D : Vector Byte 32),
    D = sha256 ((List.finRange 32).filterMap
      fun i => if i.val < s.entLen.toNat then some (entByte s.ent i) else none) →
    (s.entLen.toNat ≤ 32 → ∃ t, exec .hash s = .next t ∧
      t = { s with digest := t.digest, statusBusy := false, statusDone := true, errCode := 0, errInfo := 0 } ∧
      ∀ k : Fin 8, t.digest[k] =
        (D[4 * k.val].setWidth 32 <<< 24) ||| (D[4 * k.val + 1].setWidth 32 <<< 16) |||
          (D[4 * k.val + 2].setWidth 32 <<< 8) ||| D[4 * k.val + 3].setWidth 32) ∧
    (32 < s.entLen.toNat → exec .hash s = .next { s with
      statusBusy := false, statusDone := true, errCode := 7, errInfo := s.entLen })

/-- R254: CLEAR, and that after it every register but CTRL and STATUS reads as after reset. -/
def Obligations.ClearScrubsEveryBuffer : Prop :=
  ∀ s : State, ∃ t, exec .clear s = .next t ∧
    t = { s with
      ent := t.ent, digest := t.digest, idx := t.idx, entLen := 0, wcount := 0, csum := 0,
      statusBusy := false, statusDone := true, errCode := 0, errInfo := 0 } ∧
    (∀ k : Fin 8, t.ent[k] = 0 ∧ t.digest[k] = 0) ∧ (∀ j : Fin 24, t.idx[j] = 0) ∧
    ∀ off : BitVec 8, off.toNat % 4 = 0 → off.toNat ≠ 0x00 → off.toNat ≠ 0x08 →
      registerValue (regAt off) t = registerValue (regAt off) State.reset

/-- R255: every word that is no command completes with ILLEGAL_COMMAND and itself as ERR_INFO, and changes nothing else. -/
def Obligations.IllegalWordReportsItself : Prop :=
  (∀ (s : State) (w : Word), exec (.illegal w) s = .next { s with
    statusBusy := false, statusDone := true, errCode := 6, errInfo := s.pend }) ∧
  ∀ (s : State) (rest : List Event), s.statusBusy = true → s.agenda = .completion :: rest →
    (s.pend.extractLsb' 4 28 ≠ 0 ∨ (s.pend.extractLsb' 0 4).toNat = 0 ∨ 6 ≤ (s.pend.extractLsb' 0 4).toNat) →
    step s = .next { s with
      agenda := rest, statusBusy := false, statusDone := true, errCode := 6, errInfo := s.pend }

/-- R301, R302: the error a completion reports: its code, the command that raises it, its cause and its ERR_INFO. No other code
is ever written. -/
def Obligations.ErrorReportsCauseAndInfo : Prop :=
  ∀ (i : Instr) (s t : State), exec i s = .next t →
    (t.errCode = 0 ∧ t.errInfo = 0) ∨
    (t.errCode = 1 ∧ (i = .validate ∨ i = .encode) ∧ s.entLen.toNat ∉ [16, 20, 24, 28, 32] ∧ t.errInfo = s.entLen) ∨
    (t.errCode = 2 ∧ i = .decode ∧ s.wcount.toNat ∉ [12, 15, 18, 21, 24] ∧ t.errInfo = s.wcount) ∨
    (t.errCode = 3 ∧ i = .decode ∧ ∃ j : Fin 24, j.val < s.wcount.toNat ∧ 2047 < (s.idx[j]).toNat ∧
      t.errInfo.toNat = j.val ∧ t.idx = s.idx) ∨
    (t.errCode = 4 ∧ i = .decode ∧ ∃ v : Nat, v = joinGroups (indexList s.idx s.wcount.toNat) ∧
      checksum (candidateEntropy v s.wcount.toNat) ≠ foundChecksum v s.wcount.toNat ∧
      t.errInfo.extractLsb' 8 8 = checksum (candidateEntropy v s.wcount.toNat) ∧
      t.errInfo.extractLsb' 0 8 = foundChecksum v s.wcount.toNat ∧ t.errInfo.extractLsb' 16 16 = 0) ∨
    (t.errCode = 6 ∧ (∃ w, i = .illegal w) ∧ t.errInfo = s.pend) ∨
    (t.errCode = 7 ∧ i = .hash ∧ 32 < s.entLen.toNat ∧ t.errInfo = s.entLen)

/-- R304: a command that ends with an error changes the error result, BUSY and DONE, and nothing else. -/
def Obligations.FailedCommandChangesNothingElse : Prop :=
  ∀ (i : Instr) (s t : State), exec i s = .next t → t.errCode ≠ 0 →
    t = { s with statusBusy := false, statusDone := true, errCode := t.errCode, errInfo := t.errInfo }

/-- R103, R258: the frame of every command: the registers of its row, the error result, BUSY and DONE, and nothing else; CTRL,
OVR and PEND in no row. -/
def Obligations.CommandsWriteOnlyTheirRow : Prop :=
  ∀ s : State,
    (∀ t, exec .validate s = .next t → t = { s with
      statusBusy := false, statusDone := true, errCode := t.errCode, errInfo := t.errInfo }) ∧
    (∀ t, exec .encode s = .next t → t = { s with
      idx := t.idx, wcount := t.wcount, csum := t.csum,
      statusBusy := false, statusDone := true, errCode := t.errCode, errInfo := t.errInfo }) ∧
    (∀ t, exec .decode s = .next t → t = { s with
      ent := t.ent, entLen := t.entLen, csum := t.csum,
      statusBusy := false, statusDone := true, errCode := t.errCode, errInfo := t.errInfo }) ∧
    (∀ t, exec .hash s = .next t → t = { s with
      digest := t.digest,
      statusBusy := false, statusDone := true, errCode := t.errCode, errInfo := t.errInfo }) ∧
    (∀ t, exec .clear s = .next t → t = { s with
      ent := t.ent, entLen := t.entLen, wcount := t.wcount, idx := t.idx, digest := t.digest, csum := t.csum,
      statusBusy := false, statusDone := true, errCode := 0, errInfo := 0 }) ∧
    ∀ w t, exec (.illegal w) s = .next t → t = { s with
      statusBusy := false, statusDone := true, errCode := t.errCode, errInfo := t.errInfo }

/-- R257: a command's result depends only on the operands it reads and on PEND, never on anything else in the state. -/
def Obligations.ResultsDependOnOperandsOnly : Prop :=
  ∀ (i : Instr) (s₁ s₂ t₁ t₂ : State), OperandsAgree i s₁ s₂ →
    exec i s₁ = .next t₁ → exec i s₂ = .next t₂ →
    t₁.errCode = t₂.errCode ∧ t₁.errInfo = t₂.errInfo ∧ (t₁.errCode = 0 → ResultRegistersAgree i t₁ t₂)

/-! ## The host's pseudo-operations and word layer -/

/-- R113: LOAD_ENT and LOAD_IDX put a byte string and an index sequence into the operand registers of an idle block, and no
step of them issues a command. -/
def Obligations.LoadsFillOperands : Prop :=
  ∀ s : State, s.statusBusy = false →
    (∀ e : List Byte, e.length ≤ 32 → ∃ t, runScript (loadEnt e) s = .next t ∧
      t = { s with agenda := [], entLen := BitVec.ofNat 32 e.length, ent := t.ent, response := t.response } ∧
      ∀ i : Fin 32, i.val < e.length → entByte t.ent i = e.getD i.val 0) ∧
    ∀ is : List Word, is.length ≤ 24 → ∃ t, runScript (loadIdx is) s = .next t ∧
      t = { s with agenda := [], wcount := BitVec.ofNat 32 is.length, idx := t.idx, response := t.response } ∧
      ∀ j : Fin 24, t.idx[j] = if j.val < is.length then is.getD j.val 0 else s.idx[j]

/-- R273, R271: host_decode checks the word count before any lookup, and reports the lowest word that has no index; the block
is then not called. -/
def Obligations.HostDecodeRejectsInOrder : Prop :=
  ∀ (W : Wordlist) (polls : Nat) (words : List String) (s : State),
    (words.length ∉ [12, 15, 18, 21, 24] →
      hostDecode W polls words s = .next (.error (.invalidWordCount words.length), s)) ∧
    (words.length ∈ [12, 15, 18, 21, 24] → ∀ p, p < words.length →
      (∀ i, W.word i ≠ words.getD p "") →
      (∀ q, q < p → ∃ i, W.word i = words.getD q "") →
      hostDecode W polls words s = .next (.error (.unknownWord (words.getD p "") p), s))

/-- R272: host_encode fails on every length that is not permitted, with that length, also beyond the buffer. -/
def Obligations.HostEncodeRejectsLength : Prop :=
  ∀ (W : Wordlist) (polls : Nat) (e : List Byte) (s : State), s.statusBusy = false →
    e.length ∉ [16, 20, 24, 28, 32] → e.length < 2 ^ 32 →
    ∃ t, hostEncode W polls e s =
      .next (.error (.invalidEntropyLength (BitVec.ofNat 32 e.length)), t)

/-- R274: at word level, host_decode(host_encode(e)) = Ok(e), for every wordlist and any number of polls. -/
def Obligations.WordLevelRoundTrip : Prop :=
  ∀ (W : Wordlist) (polls₁ polls₂ : Nat) (e : List Byte) (s : State), s.statusBusy = false →
    e.length ∈ [16, 20, 24, 28, 32] →
    ∃ words t u, hostEncode W polls₁ e s = .next (.ok words, t) ∧ words.length = 3 * e.length / 4 ∧
      hostDecode W polls₂ words t = .next (.ok e, u)
end

