-- ==== Sys2Proof/Laws/State.lean ====
section
/-! SUPPORT. What each named update of State does to each field, one lemma per field per update. -/

namespace Sys2Proof.Machine

variable (s : State)

section flagsAtIssueFields
@[simp] theorem flagsAtIssue_ctrlIe : (flagsAtIssue s).ctrlIe = s.ctrlIe := rfl
@[simp] theorem flagsAtIssue_statusBusy : (flagsAtIssue s).statusBusy = true := rfl
@[simp] theorem flagsAtIssue_statusDone : (flagsAtIssue s).statusDone = false := rfl
@[simp] theorem flagsAtIssue_statusOvr : (flagsAtIssue s).statusOvr = s.statusOvr := rfl
@[simp] theorem flagsAtIssue_errCode : (flagsAtIssue s).errCode = s.errCode := rfl
@[simp] theorem flagsAtIssue_errInfo : (flagsAtIssue s).errInfo = s.errInfo := rfl
@[simp] theorem flagsAtIssue_entLen : (flagsAtIssue s).entLen = s.entLen := rfl
@[simp] theorem flagsAtIssue_wcount : (flagsAtIssue s).wcount = s.wcount := rfl
@[simp] theorem flagsAtIssue_csum : (flagsAtIssue s).csum = s.csum := rfl
@[simp] theorem flagsAtIssue_ent : (flagsAtIssue s).ent = s.ent := rfl
@[simp] theorem flagsAtIssue_digest : (flagsAtIssue s).digest = s.digest := rfl
@[simp] theorem flagsAtIssue_idx : (flagsAtIssue s).idx = s.idx := rfl
@[simp] theorem flagsAtIssue_pend : (flagsAtIssue s).pend = s.pend := rfl
@[simp] theorem flagsAtIssue_agenda : (flagsAtIssue s).agenda = s.agenda := rfl
@[simp] theorem flagsAtIssue_response : (flagsAtIssue s).response = s.response := rfl
@[simp] theorem flagsAtIssue_draws : (flagsAtIssue s).draws = s.draws := rfl
end flagsAtIssueFields

section flagsAtCompletionFields
@[simp] theorem flagsAtCompletion_ctrlIe : (flagsAtCompletion s).ctrlIe = s.ctrlIe := rfl
@[simp] theorem flagsAtCompletion_statusBusy : (flagsAtCompletion s).statusBusy = false := rfl
@[simp] theorem flagsAtCompletion_statusDone : (flagsAtCompletion s).statusDone = true := rfl
@[simp] theorem flagsAtCompletion_statusOvr : (flagsAtCompletion s).statusOvr = s.statusOvr := rfl
@[simp] theorem flagsAtCompletion_errCode : (flagsAtCompletion s).errCode = s.errCode := rfl
@[simp] theorem flagsAtCompletion_errInfo : (flagsAtCompletion s).errInfo = s.errInfo := rfl
@[simp] theorem flagsAtCompletion_entLen : (flagsAtCompletion s).entLen = s.entLen := rfl
@[simp] theorem flagsAtCompletion_wcount : (flagsAtCompletion s).wcount = s.wcount := rfl
@[simp] theorem flagsAtCompletion_csum : (flagsAtCompletion s).csum = s.csum := rfl
@[simp] theorem flagsAtCompletion_ent : (flagsAtCompletion s).ent = s.ent := rfl
@[simp] theorem flagsAtCompletion_digest : (flagsAtCompletion s).digest = s.digest := rfl
@[simp] theorem flagsAtCompletion_idx : (flagsAtCompletion s).idx = s.idx := rfl
@[simp] theorem flagsAtCompletion_pend : (flagsAtCompletion s).pend = s.pend := rfl
@[simp] theorem flagsAtCompletion_agenda : (flagsAtCompletion s).agenda = s.agenda := rfl
@[simp] theorem flagsAtCompletion_response : (flagsAtCompletion s).response = s.response := rfl
@[simp] theorem flagsAtCompletion_draws : (flagsAtCompletion s).draws = s.draws := rfl
end flagsAtCompletionFields

section setOverrunFields
@[simp] theorem setOverrun_ctrlIe : (setOverrun s).ctrlIe = s.ctrlIe := rfl
@[simp] theorem setOverrun_statusBusy : (setOverrun s).statusBusy = s.statusBusy := rfl
@[simp] theorem setOverrun_statusDone : (setOverrun s).statusDone = s.statusDone := rfl
@[simp] theorem setOverrun_statusOvr : (setOverrun s).statusOvr = true := rfl
@[simp] theorem setOverrun_errCode : (setOverrun s).errCode = s.errCode := rfl
@[simp] theorem setOverrun_errInfo : (setOverrun s).errInfo = s.errInfo := rfl
@[simp] theorem setOverrun_entLen : (setOverrun s).entLen = s.entLen := rfl
@[simp] theorem setOverrun_wcount : (setOverrun s).wcount = s.wcount := rfl
@[simp] theorem setOverrun_csum : (setOverrun s).csum = s.csum := rfl
@[simp] theorem setOverrun_ent : (setOverrun s).ent = s.ent := rfl
@[simp] theorem setOverrun_digest : (setOverrun s).digest = s.digest := rfl
@[simp] theorem setOverrun_idx : (setOverrun s).idx = s.idx := rfl
@[simp] theorem setOverrun_pend : (setOverrun s).pend = s.pend := rfl
@[simp] theorem setOverrun_agenda : (setOverrun s).agenda = s.agenda := rfl
@[simp] theorem setOverrun_response : (setOverrun s).response = s.response := rfl
@[simp] theorem setOverrun_draws : (setOverrun s).draws = s.draws := rfl
end setOverrunFields

section clearStatusBitsFields
@[simp] theorem clearStatusBits_ctrlIe (v : Word) : (clearStatusBits v s).ctrlIe = s.ctrlIe := rfl
@[simp] theorem clearStatusBits_statusBusy (v : Word) : (clearStatusBits v s).statusBusy = s.statusBusy := rfl
@[simp] theorem clearStatusBits_statusDone (v : Word) : (clearStatusBits v s).statusDone = (s.statusDone && !v.getLsbD 1) := rfl
@[simp] theorem clearStatusBits_statusOvr (v : Word) : (clearStatusBits v s).statusOvr = (s.statusOvr && !v.getLsbD 3) := rfl
@[simp] theorem clearStatusBits_errCode (v : Word) : (clearStatusBits v s).errCode = s.errCode := rfl
@[simp] theorem clearStatusBits_errInfo (v : Word) : (clearStatusBits v s).errInfo = s.errInfo := rfl
@[simp] theorem clearStatusBits_entLen (v : Word) : (clearStatusBits v s).entLen = s.entLen := rfl
@[simp] theorem clearStatusBits_wcount (v : Word) : (clearStatusBits v s).wcount = s.wcount := rfl
@[simp] theorem clearStatusBits_csum (v : Word) : (clearStatusBits v s).csum = s.csum := rfl
@[simp] theorem clearStatusBits_ent (v : Word) : (clearStatusBits v s).ent = s.ent := rfl
@[simp] theorem clearStatusBits_digest (v : Word) : (clearStatusBits v s).digest = s.digest := rfl
@[simp] theorem clearStatusBits_idx (v : Word) : (clearStatusBits v s).idx = s.idx := rfl
@[simp] theorem clearStatusBits_pend (v : Word) : (clearStatusBits v s).pend = s.pend := rfl
@[simp] theorem clearStatusBits_agenda (v : Word) : (clearStatusBits v s).agenda = s.agenda := rfl
@[simp] theorem clearStatusBits_response (v : Word) : (clearStatusBits v s).response = s.response := rfl
@[simp] theorem clearStatusBits_draws (v : Word) : (clearStatusBits v s).draws = s.draws := rfl
end clearStatusBitsFields

section issueFields
@[simp] theorem issue_ctrlIe (v : Word) : (issue v s).ctrlIe = s.ctrlIe := rfl
@[simp] theorem issue_statusBusy (v : Word) : (issue v s).statusBusy = true := rfl
@[simp] theorem issue_statusDone (v : Word) : (issue v s).statusDone = false := rfl
@[simp] theorem issue_statusOvr (v : Word) : (issue v s).statusOvr = s.statusOvr := rfl
@[simp] theorem issue_errCode (v : Word) : (issue v s).errCode = 0 := rfl
@[simp] theorem issue_errInfo (v : Word) : (issue v s).errInfo = 0 := rfl
@[simp] theorem issue_entLen (v : Word) : (issue v s).entLen = s.entLen := rfl
@[simp] theorem issue_wcount (v : Word) : (issue v s).wcount = s.wcount := rfl
@[simp] theorem issue_csum (v : Word) : (issue v s).csum = s.csum := rfl
@[simp] theorem issue_ent (v : Word) : (issue v s).ent = s.ent := rfl
@[simp] theorem issue_digest (v : Word) : (issue v s).digest = s.digest := rfl
@[simp] theorem issue_idx (v : Word) : (issue v s).idx = s.idx := rfl
@[simp] theorem issue_pend (v : Word) : (issue v s).pend = v := rfl
@[simp] theorem issue_agenda (v : Word) : (issue v s).agenda = s.agenda := rfl
@[simp] theorem issue_response (v : Word) : (issue v s).response = s.response := rfl
@[simp] theorem issue_draws (v : Word) : (issue v s).draws = s.draws := rfl
end issueFields

section completeOkFields
@[simp] theorem completeOk_ctrlIe : (completeOk s).ctrlIe = s.ctrlIe := rfl
@[simp] theorem completeOk_statusBusy : (completeOk s).statusBusy = false := rfl
@[simp] theorem completeOk_statusDone : (completeOk s).statusDone = true := rfl
@[simp] theorem completeOk_statusOvr : (completeOk s).statusOvr = s.statusOvr := rfl
@[simp] theorem completeOk_errCode : (completeOk s).errCode = 0 := rfl
@[simp] theorem completeOk_errInfo : (completeOk s).errInfo = 0 := rfl
@[simp] theorem completeOk_entLen : (completeOk s).entLen = s.entLen := rfl
@[simp] theorem completeOk_wcount : (completeOk s).wcount = s.wcount := rfl
@[simp] theorem completeOk_csum : (completeOk s).csum = s.csum := rfl
@[simp] theorem completeOk_ent : (completeOk s).ent = s.ent := rfl
@[simp] theorem completeOk_digest : (completeOk s).digest = s.digest := rfl
@[simp] theorem completeOk_idx : (completeOk s).idx = s.idx := rfl
@[simp] theorem completeOk_pend : (completeOk s).pend = s.pend := rfl
@[simp] theorem completeOk_agenda : (completeOk s).agenda = s.agenda := rfl
@[simp] theorem completeOk_response : (completeOk s).response = s.response := rfl
@[simp] theorem completeOk_draws : (completeOk s).draws = s.draws := rfl
end completeOkFields

section raiseErrorFields
@[simp] theorem raiseError_ctrlIe (e : ErrorKind) (info : Word) : (raiseError e info s).ctrlIe = s.ctrlIe := rfl
@[simp] theorem raiseError_statusBusy (e : ErrorKind) (info : Word) : (raiseError e info s).statusBusy = false := rfl
@[simp] theorem raiseError_statusDone (e : ErrorKind) (info : Word) : (raiseError e info s).statusDone = true := rfl
@[simp] theorem raiseError_statusOvr (e : ErrorKind) (info : Word) : (raiseError e info s).statusOvr = s.statusOvr := rfl
@[simp] theorem raiseError_errCode (e : ErrorKind) (info : Word) : (raiseError e info s).errCode = errorCode e := rfl
@[simp] theorem raiseError_errInfo (e : ErrorKind) (info : Word) : (raiseError e info s).errInfo = info := rfl
@[simp] theorem raiseError_entLen (e : ErrorKind) (info : Word) : (raiseError e info s).entLen = s.entLen := rfl
@[simp] theorem raiseError_wcount (e : ErrorKind) (info : Word) : (raiseError e info s).wcount = s.wcount := rfl
@[simp] theorem raiseError_csum (e : ErrorKind) (info : Word) : (raiseError e info s).csum = s.csum := rfl
@[simp] theorem raiseError_ent (e : ErrorKind) (info : Word) : (raiseError e info s).ent = s.ent := rfl
@[simp] theorem raiseError_digest (e : ErrorKind) (info : Word) : (raiseError e info s).digest = s.digest := rfl
@[simp] theorem raiseError_idx (e : ErrorKind) (info : Word) : (raiseError e info s).idx = s.idx := rfl
@[simp] theorem raiseError_pend (e : ErrorKind) (info : Word) : (raiseError e info s).pend = s.pend := rfl
@[simp] theorem raiseError_agenda (e : ErrorKind) (info : Word) : (raiseError e info s).agenda = s.agenda := rfl
@[simp] theorem raiseError_response (e : ErrorKind) (info : Word) : (raiseError e info s).response = s.response := rfl
@[simp] theorem raiseError_draws (e : ErrorKind) (info : Word) : (raiseError e info s).draws = s.draws := rfl
end raiseErrorFields

section scrubBuffersFields
@[simp] theorem scrubBuffers_ctrlIe : (scrubBuffers s).ctrlIe = s.ctrlIe := rfl
@[simp] theorem scrubBuffers_statusBusy : (scrubBuffers s).statusBusy = s.statusBusy := rfl
@[simp] theorem scrubBuffers_statusDone : (scrubBuffers s).statusDone = s.statusDone := rfl
@[simp] theorem scrubBuffers_statusOvr : (scrubBuffers s).statusOvr = s.statusOvr := rfl
@[simp] theorem scrubBuffers_errCode : (scrubBuffers s).errCode = s.errCode := rfl
@[simp] theorem scrubBuffers_errInfo : (scrubBuffers s).errInfo = s.errInfo := rfl
@[simp] theorem scrubBuffers_entLen : (scrubBuffers s).entLen = 0 := rfl
@[simp] theorem scrubBuffers_wcount : (scrubBuffers s).wcount = 0 := rfl
@[simp] theorem scrubBuffers_csum : (scrubBuffers s).csum = 0 := rfl
@[simp] theorem scrubBuffers_ent : (scrubBuffers s).ent = Vector.replicate 8 0 := rfl
@[simp] theorem scrubBuffers_digest : (scrubBuffers s).digest = Vector.replicate 8 0 := rfl
@[simp] theorem scrubBuffers_idx : (scrubBuffers s).idx = Vector.replicate 24 0 := rfl
@[simp] theorem scrubBuffers_pend : (scrubBuffers s).pend = s.pend := rfl
@[simp] theorem scrubBuffers_agenda : (scrubBuffers s).agenda = s.agenda := rfl
@[simp] theorem scrubBuffers_response : (scrubBuffers s).response = s.response := rfl
@[simp] theorem scrubBuffers_draws : (scrubBuffers s).draws = s.draws := rfl
end scrubBuffersFields

section applyResetFields
@[simp] theorem applyReset_ctrlIe : (applyReset s).ctrlIe = State.reset.ctrlIe := rfl
@[simp] theorem applyReset_statusBusy : (applyReset s).statusBusy = State.reset.statusBusy := rfl
@[simp] theorem applyReset_statusDone : (applyReset s).statusDone = State.reset.statusDone := rfl
@[simp] theorem applyReset_statusOvr : (applyReset s).statusOvr = State.reset.statusOvr := rfl
@[simp] theorem applyReset_errCode : (applyReset s).errCode = State.reset.errCode := rfl
@[simp] theorem applyReset_errInfo : (applyReset s).errInfo = State.reset.errInfo := rfl
@[simp] theorem applyReset_entLen : (applyReset s).entLen = State.reset.entLen := rfl
@[simp] theorem applyReset_wcount : (applyReset s).wcount = State.reset.wcount := rfl
@[simp] theorem applyReset_csum : (applyReset s).csum = State.reset.csum := rfl
@[simp] theorem applyReset_ent : (applyReset s).ent = State.reset.ent := rfl
@[simp] theorem applyReset_digest : (applyReset s).digest = State.reset.digest := rfl
@[simp] theorem applyReset_idx : (applyReset s).idx = State.reset.idx := rfl
@[simp] theorem applyReset_pend : (applyReset s).pend = State.reset.pend := rfl
@[simp] theorem applyReset_agenda : (applyReset s).agenda = s.agenda := rfl
@[simp] theorem applyReset_response : (applyReset s).response = State.reset.response := rfl
@[simp] theorem applyReset_draws : (applyReset s).draws = s.draws := rfl
end applyResetFields

section respondFields
@[simp] theorem respond_ctrlIe (resp : Resp) (rdata : Word) : (respond resp rdata s).ctrlIe = s.ctrlIe := rfl
@[simp] theorem respond_statusBusy (resp : Resp) (rdata : Word) : (respond resp rdata s).statusBusy = s.statusBusy := rfl
@[simp] theorem respond_statusDone (resp : Resp) (rdata : Word) : (respond resp rdata s).statusDone = s.statusDone := rfl
@[simp] theorem respond_statusOvr (resp : Resp) (rdata : Word) : (respond resp rdata s).statusOvr = s.statusOvr := rfl
@[simp] theorem respond_errCode (resp : Resp) (rdata : Word) : (respond resp rdata s).errCode = s.errCode := rfl
@[simp] theorem respond_errInfo (resp : Resp) (rdata : Word) : (respond resp rdata s).errInfo = s.errInfo := rfl
@[simp] theorem respond_entLen (resp : Resp) (rdata : Word) : (respond resp rdata s).entLen = s.entLen := rfl
@[simp] theorem respond_wcount (resp : Resp) (rdata : Word) : (respond resp rdata s).wcount = s.wcount := rfl
@[simp] theorem respond_csum (resp : Resp) (rdata : Word) : (respond resp rdata s).csum = s.csum := rfl
@[simp] theorem respond_ent (resp : Resp) (rdata : Word) : (respond resp rdata s).ent = s.ent := rfl
@[simp] theorem respond_digest (resp : Resp) (rdata : Word) : (respond resp rdata s).digest = s.digest := rfl
@[simp] theorem respond_idx (resp : Resp) (rdata : Word) : (respond resp rdata s).idx = s.idx := rfl
@[simp] theorem respond_pend (resp : Resp) (rdata : Word) : (respond resp rdata s).pend = s.pend := rfl
@[simp] theorem respond_agenda (resp : Resp) (rdata : Word) : (respond resp rdata s).agenda = s.agenda := rfl
@[simp] theorem respond_response (resp : Resp) (rdata : Word) : (respond resp rdata s).response = some { resp, rdata } := rfl
@[simp] theorem respond_draws (resp : Resp) (rdata : Word) : (respond resp rdata s).draws = s.draws := rfl
end respondFields

section writeMnemonicFields
@[simp] theorem writeMnemonic_ctrlIe (e : List Byte) : (writeMnemonic e s).ctrlIe = s.ctrlIe := rfl
@[simp] theorem writeMnemonic_statusBusy (e : List Byte) : (writeMnemonic e s).statusBusy = s.statusBusy := rfl
@[simp] theorem writeMnemonic_statusDone (e : List Byte) : (writeMnemonic e s).statusDone = s.statusDone := rfl
@[simp] theorem writeMnemonic_statusOvr (e : List Byte) : (writeMnemonic e s).statusOvr = s.statusOvr := rfl
@[simp] theorem writeMnemonic_errCode (e : List Byte) : (writeMnemonic e s).errCode = s.errCode := rfl
@[simp] theorem writeMnemonic_errInfo (e : List Byte) : (writeMnemonic e s).errInfo = s.errInfo := rfl
@[simp] theorem writeMnemonic_entLen (e : List Byte) : (writeMnemonic e s).entLen = s.entLen := rfl
@[simp] theorem writeMnemonic_wcount (e : List Byte) : (writeMnemonic e s).wcount = BitVec.ofNat 32 (3 * e.length / 4) := rfl
@[simp] theorem writeMnemonic_csum (e : List Byte) : (writeMnemonic e s).csum = checksum e := rfl
@[simp] theorem writeMnemonic_ent (e : List Byte) : (writeMnemonic e s).ent = s.ent := rfl
@[simp] theorem writeMnemonic_digest (e : List Byte) : (writeMnemonic e s).digest = s.digest := rfl
@[simp] theorem writeMnemonic_idx (e : List Byte) : (writeMnemonic e s).idx = indexBuffer (packedStream e) (3 * e.length / 4) := rfl
@[simp] theorem writeMnemonic_pend (e : List Byte) : (writeMnemonic e s).pend = s.pend := rfl
@[simp] theorem writeMnemonic_agenda (e : List Byte) : (writeMnemonic e s).agenda = s.agenda := rfl
@[simp] theorem writeMnemonic_response (e : List Byte) : (writeMnemonic e s).response = s.response := rfl
@[simp] theorem writeMnemonic_draws (e : List Byte) : (writeMnemonic e s).draws = s.draws := rfl
end writeMnemonicFields

section writeEntropyFields
@[simp] theorem writeEntropy_ctrlIe (e : List Byte) (found : Byte) : (writeEntropy e found s).ctrlIe = s.ctrlIe := rfl
@[simp] theorem writeEntropy_statusBusy (e : List Byte) (found : Byte) : (writeEntropy e found s).statusBusy = s.statusBusy := rfl
@[simp] theorem writeEntropy_statusDone (e : List Byte) (found : Byte) : (writeEntropy e found s).statusDone = s.statusDone := rfl
@[simp] theorem writeEntropy_statusOvr (e : List Byte) (found : Byte) : (writeEntropy e found s).statusOvr = s.statusOvr := rfl
@[simp] theorem writeEntropy_errCode (e : List Byte) (found : Byte) : (writeEntropy e found s).errCode = s.errCode := rfl
@[simp] theorem writeEntropy_errInfo (e : List Byte) (found : Byte) : (writeEntropy e found s).errInfo = s.errInfo := rfl
@[simp] theorem writeEntropy_entLen (e : List Byte) (found : Byte) : (writeEntropy e found s).entLen = BitVec.ofNat 32 e.length := rfl
@[simp] theorem writeEntropy_wcount (e : List Byte) (found : Byte) : (writeEntropy e found s).wcount = s.wcount := rfl
@[simp] theorem writeEntropy_csum (e : List Byte) (found : Byte) : (writeEntropy e found s).csum = found := rfl
@[simp] theorem writeEntropy_ent (e : List Byte) (found : Byte) : (writeEntropy e found s).ent = packEntropy e := rfl
@[simp] theorem writeEntropy_digest (e : List Byte) (found : Byte) : (writeEntropy e found s).digest = s.digest := rfl
@[simp] theorem writeEntropy_idx (e : List Byte) (found : Byte) : (writeEntropy e found s).idx = s.idx := rfl
@[simp] theorem writeEntropy_pend (e : List Byte) (found : Byte) : (writeEntropy e found s).pend = s.pend := rfl
@[simp] theorem writeEntropy_agenda (e : List Byte) (found : Byte) : (writeEntropy e found s).agenda = s.agenda := rfl
@[simp] theorem writeEntropy_response (e : List Byte) (found : Byte) : (writeEntropy e found s).response = s.response := rfl
@[simp] theorem writeEntropy_draws (e : List Byte) (found : Byte) : (writeEntropy e found s).draws = s.draws := rfl
end writeEntropyFields

/-! A read of a register moves on the model's count of free values and nothing else. -/
@[simp] theorem afterRead_ctrlIe (r : Reg) : (afterRead r s).ctrlIe = s.ctrlIe := by unfold afterRead; split <;> rfl
@[simp] theorem afterRead_statusBusy (r : Reg) : (afterRead r s).statusBusy = s.statusBusy := by unfold afterRead; split <;> rfl
@[simp] theorem afterRead_statusDone (r : Reg) : (afterRead r s).statusDone = s.statusDone := by unfold afterRead; split <;> rfl
@[simp] theorem afterRead_statusOvr (r : Reg) : (afterRead r s).statusOvr = s.statusOvr := by unfold afterRead; split <;> rfl
@[simp] theorem afterRead_errCode (r : Reg) : (afterRead r s).errCode = s.errCode := by unfold afterRead; split <;> rfl
@[simp] theorem afterRead_errInfo (r : Reg) : (afterRead r s).errInfo = s.errInfo := by unfold afterRead; split <;> rfl
@[simp] theorem afterRead_entLen (r : Reg) : (afterRead r s).entLen = s.entLen := by unfold afterRead; split <;> rfl
@[simp] theorem afterRead_wcount (r : Reg) : (afterRead r s).wcount = s.wcount := by unfold afterRead; split <;> rfl
@[simp] theorem afterRead_csum (r : Reg) : (afterRead r s).csum = s.csum := by unfold afterRead; split <;> rfl
@[simp] theorem afterRead_ent (r : Reg) : (afterRead r s).ent = s.ent := by unfold afterRead; split <;> rfl
@[simp] theorem afterRead_digest (r : Reg) : (afterRead r s).digest = s.digest := by unfold afterRead; split <;> rfl
@[simp] theorem afterRead_idx (r : Reg) : (afterRead r s).idx = s.idx := by unfold afterRead; split <;> rfl
@[simp] theorem afterRead_pend (r : Reg) : (afterRead r s).pend = s.pend := by unfold afterRead; split <;> rfl
@[simp] theorem afterRead_agenda (r : Reg) : (afterRead r s).agenda = s.agenda := by unfold afterRead; split <;> rfl
@[simp] theorem afterRead_response (r : Reg) : (afterRead r s).response = s.response := by unfold afterRead; split <;> rfl

/-! The state after reset. -/
@[simp] theorem reset_ctrlIe : State.reset.ctrlIe = false := rfl
@[simp] theorem reset_statusBusy : State.reset.statusBusy = false := rfl
@[simp] theorem reset_statusDone : State.reset.statusDone = false := rfl
@[simp] theorem reset_statusOvr : State.reset.statusOvr = false := rfl
@[simp] theorem reset_errCode : State.reset.errCode = 0 := rfl
@[simp] theorem reset_errInfo : State.reset.errInfo = 0 := rfl
@[simp] theorem reset_entLen : State.reset.entLen = 0 := rfl
@[simp] theorem reset_wcount : State.reset.wcount = 0 := rfl
@[simp] theorem reset_csum : State.reset.csum = 0 := rfl
@[simp] theorem reset_ent : State.reset.ent = Vector.replicate 8 0 := rfl
@[simp] theorem reset_digest : State.reset.digest = Vector.replicate 8 0 := rfl
@[simp] theorem reset_idx : State.reset.idx = Vector.replicate 24 0 := rfl
@[simp] theorem reset_pend : State.reset.pend = 0 := rfl
@[simp] theorem reset_agenda : State.reset.agenda = [] := rfl
@[simp] theorem reset_response : State.reset.response = none := rfl
@[simp] theorem reset_draws : State.reset.draws = 0 := rfl

end Sys2Proof.Machine
end

