-- ==== Sys2Proof/Laws/Commands.lean ====
section
/-! SUPPORT. What a completion can do: one inversion lemma per meaning and one for `exec`, cited instead of unfolding. -/

namespace Sys2Proof.Machine

/-- VALIDATE ends in one of its two ways, by the length check alone. -/
theorem execValidate_cases (s : State) :
    (validEntLen s.entLen = true ∧ execValidate s = .next (completeOk s)) ∨
    (validEntLen s.entLen = false ∧ execValidate s = .next (raiseError .invalidEntropyLength s.entLen s)) := by
  unfold execValidate
  cases h : validEntLen s.entLen <;> simp

/-- ENCODE ends in one of its two ways, by the length check alone. -/
theorem execEncode_cases (s : State) :
    (validEntLen s.entLen = true ∧
      execEncode s = .next (completeOk (writeMnemonic (entropyBytes s.ent s.entLen.toNat) s))) ∨
    (validEntLen s.entLen = false ∧ execEncode s = .next (raiseError .invalidEntropyLength s.entLen s)) := by
  unfold execEncode
  cases h : validEntLen s.entLen <;> simp

/-- The end of DECODE, once every index is known to name a word: success or a checksum mismatch. -/
theorem decodeStream_cases (v n : Nat) (s : State) :
    (checksum (candidateEntropy v n) = foundChecksum v n ∧
      decodeStream v n s = completeOk (writeEntropy (candidateEntropy v n) (foundChecksum v n) s)) ∨
    (checksum (candidateEntropy v n) ≠ foundChecksum v n ∧
      decodeStream v n s =
        raiseError .checksumMismatch (mismatchInfo (checksum (candidateEntropy v n)) (foundChecksum v n)) s) := by
  unfold decodeStream
  by_cases h : checksum (candidateEntropy v n) = foundChecksum v n <;> simp [h]

/-- DECODE ends in one of its three ways before the stream is formed, or in `decodeStream`. -/
theorem execDecode_cases (s : State) :
    (validWordCount s.wcount = false ∧ execDecode s = .next (raiseError .invalidWordCount s.wcount s)) ∨
    (validWordCount s.wcount = true ∧ ∃ j, firstUnknown (indexList s.idx s.wcount.toNat) = some j ∧
      execDecode s = .next (raiseError .unknownWord (BitVec.ofNat 32 j) s)) ∨
    (validWordCount s.wcount = true ∧ firstUnknown (indexList s.idx s.wcount.toNat) = none ∧
      execDecode s =
        .next (decodeStream (joinGroups (indexList s.idx s.wcount.toNat)) s.wcount.toNat s)) := by
  unfold execDecode
  cases h : validWordCount s.wcount
  · simp
  · cases h' : firstUnknown (indexList s.idx s.wcount.toNat) <;> simp

/-- HASH ends in one of its two ways, by the length alone. -/
theorem execHash_cases (s : State) :
    (s.entLen.toNat ≤ 32 ∧
      execHash s =
        .next (completeOk { s with digest := digestWords (sha256 (entropyBytes s.ent s.entLen.toNat)) })) ∨
    (32 < s.entLen.toNat ∧ execHash s = .next (raiseError .hashLength s.entLen s)) := by
  unfold execHash
  by_cases h : s.entLen.toNat ≤ 32
  · exact .inl ⟨h, if_pos h⟩
  · exact .inr ⟨by omega, if_neg h⟩

@[simp] theorem execClear_eq (s : State) : execClear s = .next (completeOk (scrubBuffers s)) := rfl

@[simp] theorem execIllegal_eq (s : State) : execIllegal s = .next (raiseError .illegalCommand s.pend s) := rfl

/-- The error codes are none of the success code. -/
@[simp] theorem errorCode_ne_zero (e : ErrorKind) : errorCode e ≠ 0 := by cases e <;> decide

/-- A raised error is one: ERR_CODE is not zero. -/
theorem raiseError_failed (e : ErrorKind) (info : Word) (s : State) : (raiseError e info s).errCode ≠ 0 :=
  errorCode_ne_zero e

/-- Which command raises which error (R301). -/
theorem exec_error_kinds {i : Instr} {s t : State} (h : exec i s = .next t) (he : t.errCode ≠ 0) :
    ∃ e info, t = raiseError e info s ∧
      ((e = .invalidEntropyLength ∧ (i = .validate ∨ i = .encode) ∧ info = s.entLen ∧ validEntLen info = false) ∨
       (e = .invalidWordCount ∧ i = .decode ∧ info = s.wcount ∧ validWordCount info = false) ∨
       (e = .unknownWord ∧ i = .decode ∧ ∃ j, firstUnknown (indexList s.idx s.wcount.toNat) = some j ∧
          info = BitVec.ofNat 32 j) ∨
       (e = .checksumMismatch ∧ i = .decode ∧ ∃ x y, info = mismatchInfo x y) ∨
       (e = .illegalCommand ∧ (∃ w, i = .illegal w) ∧ info = s.pend) ∨
       (e = .hashLength ∧ i = .hash ∧ info = s.entLen ∧ 32 < info.toNat)) := by
  cases i with
  | validate =>
    obtain ⟨-, hn⟩ | ⟨hv, hn⟩ := execValidate_cases s <;> rw [exec, hn] at h <;> cases h
    · exact absurd rfl he
    · exact ⟨_, _, rfl, .inl ⟨rfl, .inl rfl, rfl, hv⟩⟩
  | encode =>
    obtain ⟨-, hn⟩ | ⟨hv, hn⟩ := execEncode_cases s <;> rw [exec, hn] at h <;> cases h
    · exact absurd rfl he
    · exact ⟨_, _, rfl, .inl ⟨rfl, .inr rfl, rfl, hv⟩⟩
  | decode =>
    obtain ⟨hv, hn⟩ | ⟨-, j, hj, hn⟩ | ⟨-, -, hn⟩ := execDecode_cases s <;> rw [exec, hn] at h <;> cases h
    · exact ⟨_, _, rfl, .inr (.inl ⟨rfl, rfl, rfl, hv⟩)⟩
    · exact ⟨_, _, rfl, .inr (.inr (.inl ⟨rfl, rfl, j, hj, rfl⟩))⟩
    · obtain ⟨-, hd⟩ | ⟨-, hd⟩ :=
        decodeStream_cases (joinGroups (indexList s.idx s.wcount.toNat)) s.wcount.toNat s
      · rw [hd] at he; exact absurd rfl he
      · exact ⟨_, _, hd, .inr (.inr (.inr (.inl ⟨rfl, rfl, _, _, rfl⟩)))⟩
  | hash =>
    obtain ⟨-, hn⟩ | ⟨hv, hn⟩ := execHash_cases s <;> rw [exec, hn] at h <;> cases h
    · exact absurd rfl he
    · exact ⟨_, _, rfl, .inr (.inr (.inr (.inr (.inr ⟨rfl, rfl, rfl, hv⟩))))⟩
  | clear => cases h; exact absurd rfl he
  | illegal w =>
    cases h
    exact ⟨_, _, rfl, .inr (.inr (.inr (.inr (.inl ⟨rfl, ⟨w, rfl⟩, rfl⟩))))⟩

/-- A completion either succeeds on a state that differs from `s` in operand and result registers alone, or raises an
error on `s` itself. -/
theorem exec_cases {i : Instr} {s t : State} (h : exec i s = .next t) :
    (∃ ent digest idx entLen wcount csum,
      t = completeOk { s with ent := ent, digest := digest, idx := idx, entLen := entLen, wcount := wcount, csum := csum }) ∨
    ∃ e info, t = raiseError e info s := by
  by_cases he : t.errCode = 0
  · refine .inl ⟨t.ent, t.digest, t.idx, t.entLen, t.wcount, t.csum, ?_⟩
    cases i with
    | validate =>
      obtain ⟨-, hn⟩ | ⟨-, hn⟩ := execValidate_cases s <;> rw [exec, hn] at h <;> cases h
      · rfl
      · exact absurd he (raiseError_failed _ _ _)
    | encode =>
      obtain ⟨-, hn⟩ | ⟨-, hn⟩ := execEncode_cases s <;> rw [exec, hn] at h <;> cases h
      · rfl
      · exact absurd he (raiseError_failed _ _ _)
    | decode =>
      obtain ⟨-, hn⟩ | ⟨-, j, -, hn⟩ | ⟨-, -, hn⟩ := execDecode_cases s <;> rw [exec, hn] at h <;> cases h
      · exact absurd he (raiseError_failed _ _ _)
      · exact absurd he (raiseError_failed _ _ _)
      · obtain ⟨-, hd⟩ | ⟨-, hd⟩ :=
          decodeStream_cases (joinGroups (indexList s.idx s.wcount.toNat)) s.wcount.toNat s
        · rw [hd]; rfl
        · rw [hd] at he; exact absurd he (raiseError_failed _ _ _)
    | hash =>
      obtain ⟨-, hn⟩ | ⟨-, hn⟩ := execHash_cases s <;> rw [exec, hn] at h <;> cases h
      · rfl
      · exact absurd he (raiseError_failed _ _ _)
    | clear => cases h; rfl
    | illegal w => cases h; exact absurd he (raiseError_failed _ _ _)
  · obtain ⟨e, info, ht, -⟩ := exec_error_kinds h he
    exact .inr ⟨e, info, ht⟩

/-- A completion neither reads nor writes CTRL, OVR or the model's own fields: with other values of them it does the same and
passes them through (R103, R258). -/
theorem exec_passes_through {i : Instr} {s u : State} (ie ovr : Bool) (agenda : List Event)
    (response : Option Response) (draws : Nat) (h : exec i s = .next u) :
    exec i { s with ctrlIe := ie, statusOvr := ovr, agenda := agenda, response := response, draws := draws } =
      .next { u with ctrlIe := ie, statusOvr := ovr, agenda := agenda, response := response, draws := draws } := by
  cases i with
  | validate =>
    simp only [exec, execValidate] at h ⊢
    split_ifs at h ⊢ <;> cases h <;> rfl
  | encode =>
    simp only [exec, execEncode] at h ⊢
    split_ifs at h ⊢ <;> cases h <;> rfl
  | decode =>
    simp only [exec, execDecode] at h ⊢
    split_ifs at h ⊢
    · split at h <;> cases h
      · rfl
      · simp only [decodeStream]
        split_ifs <;> rfl
    · cases h; rfl
  | hash =>
    simp only [exec, execHash] at h ⊢
    split_ifs at h ⊢ <;> cases h <;> rfl
  | clear => cases h; rfl
  | illegal w => cases h; rfl

/-- Every completion clears BUSY, sets DONE, and leaves CTRL, OVR, PEND and the model's own fields alone (R252, R258). -/
theorem exec_control {i : Instr} {s t : State} (h : exec i s = .next t) :
    t.statusBusy = false ∧ t.statusDone = true ∧ t.statusOvr = s.statusOvr ∧ t.ctrlIe = s.ctrlIe ∧ t.pend = s.pend ∧
      t.agenda = s.agenda ∧ t.response = s.response ∧ t.draws = s.draws := by
  obtain ⟨_, _, _, _, _, _, rfl⟩ | ⟨e, info, rfl⟩ := exec_cases h <;> simp

end Sys2Proof.Machine
end

