-- ==== Sys2Proof/Laws/Step.lean ====
section
/-! SUPPORT. What a bus request and a step can do, said once. -/

namespace Sys2Proof.Machine

/-- A legal write is dropped with OVR, or has the effect of its register. -/
theorem writeRegister_cases (r : Reg) (v : Word) (s : State) :
    (s.statusBusy = true ∧ droppedWhileBusy r = true ∧ writeRegister r v s = setOverrun s) ∨
    ((s.statusBusy = false ∨ droppedWhileBusy r = false) ∧ writeRegister r v s = storeRegister r v s) := by
  unfold writeRegister
  cases s.statusBusy <;> cases droppedWhileBusy r <;> simp

/-- Storing to a register leaves the model's own fields alone. -/
@[simp] theorem storeRegister_agenda (r : Reg) (v : Word) (s : State) : (storeRegister r v s).agenda = s.agenda := by
  cases r <;> rfl
@[simp] theorem storeRegister_draws (r : Reg) (v : Word) (s : State) : (storeRegister r v s).draws = s.draws := by
  cases r <;> rfl

/-- No write reaches a result register that the bus may only read. -/
@[simp] theorem storeRegister_csum (r : Reg) (v : Word) (s : State) : (storeRegister r v s).csum = s.csum := by
  cases r <;> rfl
@[simp] theorem storeRegister_digest (r : Reg) (v : Word) (s : State) : (storeRegister r v s).digest = s.digest := by
  cases r <;> rfl

/-- One request: outside the window, illegal, a legal write or a legal read. -/
theorem busRequest_cases (r : Request) (s : State) :
    (∃ a, r.addr = .elsewhere a ∧ busRequest r s = { s with response := none }) ∨
    ∃ off, r.addr = .window off ∧
      ((legalAccess r.size off = false ∧ busRequest r s = respond .error 0 s) ∨
       (legalAccess r.size off = true ∧ r.write = true ∧
          busRequest r s = respond .okay 0 (writeRegister (regAt off) r.wdata s)) ∨
       (legalAccess r.size off = true ∧ r.write = false ∧
          busRequest r s = respond .okay (readValue (regAt off) s) (afterRead (regAt off) s))) := by
  cases ha : r.addr with
  | elsewhere a => exact .inl ⟨a, rfl, by simp [busRequest, ha]⟩
  | window off =>
    refine .inr ⟨off, rfl, ?_⟩
    cases hl : legalAccess r.size off <;> cases hw : r.write <;> simp [busRequest, windowAccess, ha, hl, hw]

/-- One step, by the head of the agenda and BUSY. -/
theorem step_cases {s t : State} (h : step s = .next t) :
    (s.statusBusy = true ∧ s.agenda = [] ∧ exec (decode s.pend) s = .next t) ∨
    (s.statusBusy = true ∧ ∃ rest, s.agenda = .completion :: rest ∧
      exec (decode s.pend) { s with agenda := rest } = .next t) ∨
    (s.statusBusy = false ∧ s.agenda = [] ∧ t = s) ∨
    (s.statusBusy = false ∧ ∃ rest, s.agenda = .completion :: rest ∧ t = { s with agenda := rest }) ∨
    (∃ r rest, s.agenda = .bus r :: rest ∧ t = busRequest r { s with agenda := rest }) ∨
    (∃ rest, s.agenda = .reset :: rest ∧ t = applyReset { s with agenda := rest }) := by
  unfold step at h
  split at h
  · rename_i ha
    cases hb : s.statusBusy <;> simp [completeIfBusy, hb, complete] at h
    · exact .inr (.inr (.inl ⟨rfl, ha, h.symm⟩))
    · exact .inl ⟨rfl, ha, h⟩
  · rename_i rest ha
    cases hb : s.statusBusy <;> simp [completeIfBusy, hb, complete] at h
    · exact .inr (.inr (.inr (.inl ⟨rfl, rest, ha, h.symm⟩)))
    · exact .inr (.inl ⟨rfl, rest, ha, h⟩)
  · rename_i r rest ha
    cases h
    exact .inr (.inr (.inr (.inr (.inl ⟨r, rest, ha, rfl⟩))))
  · rename_i rest ha
    cases h
    exact .inr (.inr (.inr (.inr (.inr ⟨rest, ha, rfl⟩))))

end Sys2Proof.Machine
end

