-- ==== Sys2Proof/Laws/Bus.lean ====
section
/-! SUPPORT. The register map read off once, and the step of a legal write, of a legal read and of a run's next event. -/

namespace Sys2Proof.Machine

/-- R344: the offsets whose writes the busy rule drops. -/
theorem droppedWhileBusy_regAt : ∀ off : BitVec 8, off.toNat % 4 = 0 →
    (droppedWhileBusy (regAt off) = true ↔
      (off.toNat = 0x04 ∨ off.toNat = 0x14 ∨ off.toNat = 0x18 ∨ (0x20 ≤ off.toNat ∧ off.toNat ≤ 0x3C) ∨
        (0x60 ≤ off.toNat ∧ off.toNat ≤ 0xBC))) := by decide +kernel

/-- R345: the offsets of BUSY_UNSPECIFIED. -/
theorem busyUnspecified_regAt : ∀ off : BitVec 8,
    busyUnspecified (regAt off) = true ↔ (0x14 ≤ off.toNat ∧ off.toNat < 0xC0) := by decide +kernel

/-- R31: the offsets of the buffers, and the reserved ones. -/
theorem regAt_ent : ∀ k : Fin 8, regAt (BitVec.ofNat 8 (0x20 + 4 * k.val)) = .ent k := by decide
theorem regAt_digest : ∀ k : Fin 8, regAt (BitVec.ofNat 8 (0x40 + 4 * k.val)) = .digest k := by decide
theorem regAt_idx : ∀ j : Fin 24, regAt (BitVec.ofNat 8 (0x60 + 4 * j.val)) = .idx j := by decide
theorem regAt_reserved : ∀ off : BitVec 8, 0xC0 ≤ off.toNat → regAt off = .reserved := by decide +kernel
@[simp] theorem regAt_ctrl : regAt 0x00#8 = .ctrl := rfl
@[simp] theorem regAt_cmd : regAt 0x04#8 = .cmd := rfl
@[simp] theorem regAt_status : regAt 0x08#8 = .status := rfl
@[simp] theorem regAt_errCode : regAt 0x0C#8 = .errCode := rfl
@[simp] theorem regAt_errInfo : regAt 0x10#8 = .errInfo := rfl
@[simp] theorem regAt_entLen : regAt 0x14#8 = .entLen := rfl
@[simp] theorem regAt_wcount : regAt 0x18#8 = .wcount := rfl
@[simp] theorem regAt_csum : regAt 0x1C#8 = .csum := rfl

/-- R31: the only offset of CMD, and the only one of STATUS. -/
theorem regAt_eq_cmd : ∀ off : BitVec 8, off.toNat % 4 = 0 → (regAt off = .cmd ↔ off = 0x04) := by decide +kernel
theorem regAt_eq_status : ∀ off : BitVec 8, off.toNat % 4 = 0 → (regAt off = .status ↔ off = 0x08) := by decide +kernel
theorem regAt_eq_ctrl : ∀ off : BitVec 8, off.toNat % 4 = 0 → (regAt off = .ctrl ↔ off = 0x00) := by decide +kernel

/-- An offset is the number it is. -/
theorem offset_eq {off : BitVec 8} {n : Nat} (h : off.toNat = n) : off = BitVec.ofNat 8 n := by
  subst h; simp

/-- A legal access is one word at an aligned offset (R72). -/
theorem legalAccess_iff {size : AccessSize} {off : BitVec 8} :
    legalAccess size off = true ↔ size = .word ∧ off.toNat % 4 = 0 := by
  simp [legalAccess]

/-- The step of a legal write. -/
theorem step_wr {s : State} {off : BitVec 8} {v : Word} {rest : List Event}
    (h : s.agenda = wr off v :: rest) (ha : off.toNat % 4 = 0) :
    step s = .next (respond .okay 0 (writeRegister (regAt off) v { s with agenda := rest })) := by
  simp [step, h, wr, busRequest, windowAccess, legalAccess, ha]

/-- The step of a legal read. -/
theorem step_rd {s : State} {off : BitVec 8} {rest : List Event}
    (h : s.agenda = rd off :: rest) (ha : off.toNat % 4 = 0) :
    step s = .next (respond .okay (readValue (regAt off) { s with agenda := rest })
      (afterRead (regAt off) { s with agenda := rest })) := by
  simp [step, h, rd, busRequest, windowAccess, legalAccess, ha]

/-- The step of a completion while a command runs. -/
theorem step_completion {s : State} {rest : List Event} (h : s.agenda = .completion :: rest)
    (hb : s.statusBusy = true) : step s = exec (decode s.pend) { s with agenda := rest } := by
  simp [step, h, completeIfBusy, hb, complete]

/-- A run, one step at a time. -/
@[simp] theorem runSteps_zero (s : State) : runSteps 0 s = .next s := rfl
theorem runSteps_succ {k : Nat} {s t : State} (h : step s = .next t) : runSteps (k + 1) s = runSteps k t := by
  rw [runSteps, h]

/-- A run of `j + k` steps is a run of `j` steps and then one of `k`. -/
theorem runSteps_add {j k : Nat} {s t : State} (h : runSteps j s = .next t) : runSteps (j + k) s = runSteps k t := by
  induction j generalizing s with
  | zero => cases h; rw [Nat.zero_add]
  | succ j ih =>
    rw [runSteps] at h
    cases hs : step s with
    | next u =>
      rw [hs] at h
      rw [show j + 1 + k = (j + k) + 1 by omega, runSteps_succ hs]
      exact ih h
    | fault r => rw [hs] at h; cases h
    | refused r => rw [hs] at h; cases h

/-- The model's run is the host interface's. -/
theorem core_run_eq (k : Nat) (s : State) : Host.Core.run Sys2Proof.core k s = runSteps k s := by
  induction k generalizing s with
  | zero => rfl
  | succ k ih =>
    refine (Host.Core.run.eq_2 Sys2Proof.core s k).trans ?_
    rw [runSteps]
    cases h : step s with
    | next t =>
      have h' : Sys2Proof.core.step s = .next t := h
      rw [h']
      exact ih t
    | fault r => exact r.casesOn
    | refused r =>
      have h' : Sys2Proof.core.step s = .refused r := h
      rw [h']
      rfl

end Sys2Proof.Machine
end

