-- ==== Sys2Proof/Laws/Digits.lean ====
section
/-! SUPPORT. Numbers written in a base, most significant digit first, and bit strings: what the byte strings and the 11-bit
groups of 30_encoding.md have in common. -/

namespace Sys2Proof.Machine

/-- The number whose digits in base `b` are `ds`, most significant first. -/
def ofDigitsBE (b : Nat) (ds : List Nat) : Nat := ds.foldl (fun v d => v * b + d) 0

@[simp] theorem ofDigitsBE_nil (b : Nat) : ofDigitsBE b [] = 0 := rfl

theorem ofDigitsBE_append_singleton (b : Nat) (ds : List Nat) (d : Nat) :
    ofDigitsBE b (ds ++ [d]) = ofDigitsBE b ds * b + d := by
  simp [ofDigitsBE]

/-- A number of `n` digits is below the base to the `n`. -/
theorem ofDigitsBE_lt {b : Nat} {ds : List Nat} (h : ∀ d ∈ ds, d < b) : ofDigitsBE b ds < b ^ ds.length := by
  induction ds using List.reverseRecOn with
  | nil => simp
  | append_singleton ds d ih =>
    have h1 := ih fun x hx => h x (by simp [hx])
    have h2 := h d (by simp)
    rw [ofDigitsBE_append_singleton, List.length_append, List.length_singleton, Nat.pow_succ]
    calc ofDigitsBE b ds * b + d < (ofDigitsBE b ds + 1) * b := by rw [Nat.add_mul]; omega
      _ ≤ b ^ ds.length * b := Nat.mul_le_mul_right _ h1

/-- The digit at position `j`, read back by division. -/
theorem ofDigitsBE_digit {b : Nat} {ds : List Nat} (h : ∀ d ∈ ds, d < b) {j : Nat} (hj : j < ds.length) :
    ofDigitsBE b ds / b ^ (ds.length - 1 - j) % b = ds[j] := by
  induction ds using List.reverseRecOn with
  | nil => simp at hj
  | append_singleton ds d ih =>
    have hd := h d (by simp)
    have hb : 0 < b := by omega
    have h1 : ∀ x ∈ ds, x < b := fun x hx => h x (by simp [hx])
    rw [ofDigitsBE_append_singleton]
    rcases Nat.lt_or_ge j ds.length with hlt | hge
    · rw [List.getElem_append_left hlt, ← ih h1 hlt]
      have e : (ds ++ [d]).length - 1 - j = (ds.length - 1 - j) + 1 := by simp; omega
      rw [e, Nat.pow_succ', ← Nat.div_div_eq_div_mul]
      congr 2
      rw [Nat.mul_comm, Nat.mul_add_div hb, Nat.div_eq_of_lt hd, Nat.add_zero]
    · have hj' : j = ds.length := by simp at hj; omega
      subst hj'
      simp [Nat.mul_add_mod_self_right, Nat.mod_eq_of_lt hd]

/-- Writing a number out in `n` digits and reading it back keeps it modulo the base to the `n`. -/
theorem ofDigitsBE_digits (b x n : Nat) :
    ofDigitsBE b ((List.range n).map fun j => x / b ^ (n - 1 - j) % b) = x % b ^ n := by
  induction n generalizing x with
  | zero => simp [Nat.mod_one]
  | succ n ih =>
    have e : (List.range n).map (fun j => x / b ^ (n + 1 - 1 - j) % b) =
        (List.range n).map fun j => x / b / b ^ (n - 1 - j) % b := by
      apply List.map_congr_left
      intro j hj
      have hj := List.mem_range.1 hj
      rw [Nat.div_div_eq_div_mul, ← Nat.pow_succ', show (n - 1 - j).succ = n + 1 - 1 - j by omega]
    rw [List.range_succ, List.map_append, List.map_singleton, ofDigitsBE_append_singleton, e, ih]
    simp only [Nat.add_sub_cancel, Nat.sub_self, Nat.pow_zero, Nat.div_one]
    rw [Nat.pow_succ', Nat.mod_mul, Nat.add_comm, Nat.mul_comm]

/-- Two digit strings of one length and one value are the same. -/
theorem ofDigitsBE_injective {b : Nat} {ds es : List Nat} (hd : ∀ d ∈ ds, d < b) (he : ∀ e ∈ es, e < b)
    (hl : ds.length = es.length) (h : ofDigitsBE b ds = ofDigitsBE b es) : ds = es := by
  apply List.ext_getElem hl
  intro j h1 h2
  rw [← ofDigitsBE_digit hd h1, ← ofDigitsBE_digit he h2, h, hl]

/-- The value of a concatenation of two digit strings. -/
theorem ofDigitsBE_append (b : Nat) (ds es : List Nat) :
    ofDigitsBE b (ds ++ es) = ofDigitsBE b ds * b ^ es.length + ofDigitsBE b es := by
  induction es using List.reverseRecOn with
  | nil => simp
  | append_singleton es e ih =>
    rw [← List.append_assoc, ofDigitsBE_append_singleton, ofDigitsBE_append_singleton, ih]
    simp only [List.length_append, List.length_singleton, Nat.pow_succ]
    ring

/-- The value as a sum over positions. -/
theorem ofDigitsBE_eq_sum (b : Nat) (ds : List Nat) :
    ofDigitsBE b ds = ((List.range ds.length).map fun j => ds.getD j 0 * b ^ (ds.length - 1 - j)).sum := by
  induction ds using List.reverseRecOn with
  | nil => simp
  | append_singleton ds d ih =>
    rw [ofDigitsBE_append_singleton, ih]
    simp only [List.length_append, List.length_singleton, List.range_succ, List.map_append, List.map_singleton,
      List.sum_append, List.sum_singleton, Nat.add_sub_cancel, Nat.sub_self, Nat.pow_zero, Nat.mul_one]
    congr 1
    · rw [← List.sum_map_mul_right]
      congr 1
      apply List.map_congr_left
      intro j hj
      have hj := List.mem_range.1 hj
      rw [List.getD_append _ _ _ _ hj, Nat.mul_assoc, ← Nat.pow_succ, show (ds.length - 1 - j).succ = ds.length - j by omega]
    · simp [List.getD_eq_getElem?_getD]

/-- Bit `k` of the digit string, most significant first: bit `b - 1 - k % b` of digit `k / b`. -/
theorem ofDigitsBE_testBit {b : Nat} (hb : 0 < b) {ds : List Nat} (h : ∀ d ∈ ds, d < 2 ^ b) {k : Nat}
    (hk : k < b * ds.length) :
    (ofDigitsBE (2 ^ b) ds).testBit (b * ds.length - 1 - k) = (ds.getD (k / b) 0).testBit (b - 1 - k % b) := by
  have hj : k / b < ds.length := Nat.div_lt_of_lt_mul hk
  rw [List.getD_eq_getElem _ _ hj, ← ofDigitsBE_digit h hj, Nat.testBit_mod_two_pow, ← Nat.pow_mul, Nat.testBit_div_two_pow]
  have hm := Nat.mod_lt k hb
  have hdm := Nat.div_add_mod k b
  have e : b * (ds.length - 1 - k / b) + b * (k / b) + b = b * ds.length := by
    rw [← Nat.mul_add, ← Nat.mul_succ]; congr 1; omega
  rw [show b * ds.length - 1 - k = b - 1 - k % b + b * (ds.length - 1 - k / b) by omega]
  simp; omega

/-- R13: `bits_to_uint` of the bits of a number of `n` bits is a slice of it. -/
theorem bitsToUint_eq {s : Nat → Bool} {v n : Nat} (hs : ∀ k, k < n → s k = v.testBit (n - 1 - k)) {p w : Nat}
    (h : p + w ≤ n) : bitsToUint s p w = v / 2 ^ (n - (p + w)) % 2 ^ w := by
  induction w with
  | zero => simp [bitsToUint, Nat.mod_one]
  | succ w ih =>
    have e : (s (p + w)).toNat = v / 2 ^ (n - (p + (w + 1))) % 2 := by
      rw [hs _ (by omega), Nat.toNat_testBit, show n - 1 - (p + w) = n - (p + (w + 1)) by omega]
    rw [bitsToUint, ih (by omega), e, Nat.pow_succ' (n := w), Nat.mod_mul, Nat.div_div_eq_div_mul, ← Nat.pow_succ,
      show (n - (p + (w + 1))).succ = n - (p + w) by omega]
    omega

end Sys2Proof.Machine
end

