-- ==== Sys2Proof/Laws/Operands.lean ====
section
/-! SUPPORT. One spec lemma per function of Machine/Operands.lean: byte packing, lengths and bounds, and the two readings of the
packed stream as a number in base 256 and in base 2048. -/

namespace Sys2Proof.Machine

/-! ## Bytes of words -/

/-- Bit `i` of a word of four bytes (R105, R214). -/
theorem getLsbD_wordOfBytes (b0 b1 b2 b3 : Byte) (i : Nat) : (wordOfBytes b0 b1 b2 b3).getLsbD i =
    if i < 8 then b3.getLsbD i else if i < 16 then b2.getLsbD (i - 8) else if i < 24 then b1.getLsbD (i - 16)
      else b0.getLsbD (i - 24) := by
  simp only [wordOfBytes, BitVec.getLsbD_or, BitVec.getLsbD_shiftLeft, BitVec.getLsbD_setWidth]
  have h : ∀ (b : Byte) (k : Nat), 8 ≤ k → b.getLsbD k = false := fun b k hk => BitVec.getLsbD_of_ge b k hk
  split
  · simp [*, show i < 24 by omega, show i < 16 by omega, show i < 32 by omega]
  · split
    · simp [*, show i < 24 by omega, show i < 32 by omega, h b3 i (by omega), show i - 8 < 32 by omega]
    · split
      · simp [*, show i < 32 by omega, h b3 i (by omega), h b2 (i - 8) (by omega), show i - 16 < 32 by omega]
      · by_cases h32 : i < 32
        · simp [*, h b3 i (by omega), h b2 (i - 8) (by omega), h b1 (i - 16) (by omega), show i - 24 < 32 by omega]
        · simp [*, h b0 (i - 24) (by omega)]

theorem getLsbD_byteOfWord (w : Word) (b i : Nat) :
    (byteOfWord w b).getLsbD i = (decide (i < 8) && w.getLsbD (24 - 8 * b + i)) := by
  simp [byteOfWord]

/-- The bytes of a word of four bytes (R105). -/
theorem byteOfWord_wordOfBytes (b0 b1 b2 b3 : Byte) {b : Nat} (hb : b < 4) :
    byteOfWord (wordOfBytes b0 b1 b2 b3) b = [b0, b1, b2, b3][b] := by
  apply BitVec.eq_of_getLsbD_eq
  intro i hi
  rw [getLsbD_byteOfWord, getLsbD_wordOfBytes]
  match b, hb with
  | 0, _ => simp [hi, show ¬ 24 + i < 8 by omega, show ¬ 24 + i < 16 by omega]
  | 1, _ => simp [hi, show ¬ 16 + i < 8 by omega, show 16 + i < 24 by omega]
  | 2, _ => simp [hi, show 8 + i < 16 by omega]
  | 3, _ => simp [hi]

/-- A word is the word of its four bytes (R106, R222). -/
theorem wordOfBytes_byteOfWord (w : Word) :
    wordOfBytes (byteOfWord w 0) (byteOfWord w 1) (byteOfWord w 2) (byteOfWord w 3) = w := by
  apply BitVec.eq_of_getLsbD_eq
  intro i hi
  simp only [getLsbD_wordOfBytes, getLsbD_byteOfWord]
  split
  · simp [*]
  · split
    · simp [show i - 8 < 8 by omega, show 8 + (i - 8) = i by omega]
    · split
      · simp [show i - 16 < 8 by omega, show 16 + (i - 16) = i by omega]
      · simp [show i - 24 < 8 by omega, show 24 + (i - 24) = i by omega]

/-! ## The entropy buffer (R105, R106) -/

/-- ENT_BYTE of the buffer that holds a byte string (R105, R185). -/
theorem entByte_packEntropy (e : List Byte) (i : Fin 32) : entByte (packEntropy e) i = e.getD i.val 0 := by
  have hb := Nat.mod_lt i.val (show 4 > 0 by decide)
  have hd := Nat.div_add_mod i.val 4
  simp only [entByte, packEntropy, Vector.getElem_ofFn]
  rw [byteOfWord_wordOfBytes _ _ _ _ hb]
  generalize hq : i.val / 4 = q at *
  generalize hr : i.val % 4 = r at *
  rw [← hd]
  match r, hb with
  | 0, _ => rfl
  | 1, _ => rfl
  | 2, _ => rfl
  | 3, _ => rfl

/-- The entropy value has `len` bytes, at most 32. -/
@[simp] theorem length_entropyBytes (ent : Vector Word 8) (len : Nat) : (entropyBytes ent len).length = min len 32 := by
  simp [entropyBytes]

theorem getElem_entropyBytes (ent : Vector Word 8) (len : Nat) {i : Nat} (hi : i < (entropyBytes ent len).length) :
    (entropyBytes ent len)[i] = entByte ent ⟨i, by simp at hi; omega⟩ := by
  simp [entropyBytes]

/-- Writing a byte string into the buffer and reading it back (R105). -/
theorem entropyBytes_packEntropy {e : List Byte} (h : e.length ≤ 32) : entropyBytes (packEntropy e) e.length = e := by
  apply List.ext_getElem
  · simp [h]
  · intro i h1 h2
    rw [getElem_entropyBytes, entByte_packEntropy, List.getD_eq_getElem _ _ h2]

/-- The entropy value depends on the bytes below the length alone (R152, R257). -/
theorem entropyBytes_congr {ent₁ ent₂ : Vector Word 8} {len : Nat}
    (h : ∀ i : Fin 32, i.val < len → entByte ent₁ i = entByte ent₂ i) : entropyBytes ent₁ len = entropyBytes ent₂ len := by
  apply List.ext_getElem (by simp)
  intro i h1 h2
  rw [getElem_entropyBytes, getElem_entropyBytes]
  simp at h1
  exact h _ (by simp; omega)

/-- Two buffers with the same 32 bytes are the same. -/
theorem ent_ext {ent₁ ent₂ : Vector Word 8} (h : ∀ i : Fin 32, entByte ent₁ i = entByte ent₂ i) : ent₁ = ent₂ := by
  apply Vector.ext
  intro k hk
  rw [← wordOfBytes_byteOfWord ent₁[k], ← wordOfBytes_byteOfWord ent₂[k]]
  have hb : ∀ b, b < 4 → byteOfWord ent₁[k] b = byteOfWord ent₂[k] b := by
    intro b hb
    have := h ⟨4 * k + b, by omega⟩
    simp only [entByte, show (4 * k + b) / 4 = k by omega, show (4 * k + b) % 4 = b by omega] at this
    exact this
  rw [hb 0 (by decide), hb 1 (by decide), hb 2 (by decide), hb 3 (by decide)]

/-- Byte 4k + b of eight words is byte b of word k (R222). -/
theorem getElem_bytesOfWords (ws : Vector Word 8) {k b : Nat} (hk : k < 8) (hb : b < 4) :
    (bytesOfWords ws)[4 * k + b] = byteOfWord ws[k] b := by
  rw [bytesOfWords, Vector.getElem_ofFn]
  simp only [show (4 * k + b) / 4 = k by omega, show (4 * k + b) % 4 = b by omega]

/-- DIGEST holds the SHA-256 words H0..H7 (R106, R222). -/
theorem digestWords_bytesOfWords (ws : Vector Word 8) : digestWords (bytesOfWords ws) = ws := by
  apply Vector.ext
  intro k hk
  rw [digestWords, Vector.getElem_ofFn]
  have h0 := getElem_bytesOfWords ws hk (b := 0) (by decide)
  have h1 := getElem_bytesOfWords ws hk (b := 1) (by decide)
  have h2 := getElem_bytesOfWords ws hk (b := 2) (by decide)
  have h3 := getElem_bytesOfWords ws hk (b := 3) (by decide)
  simp only [Nat.add_zero] at h0
  simp only [h0, h1, h2, h3, wordOfBytes_byteOfWord]

/-! ## The packed stream as a number -/

/-- `int_be` is the number with the bytes as digits in base 256. -/
theorem intBE_eq_ofDigitsBE (e : List Byte) : intBE e = ofDigitsBE (2 ^ 8) (e.map BitVec.toNat) := by
  simp [intBE, ofDigitsBE, List.foldl_map]

theorem intBE_lt (e : List Byte) : intBE e < 2 ^ (8 * e.length) := by
  rw [intBE_eq_ofDigitsBE]
  have := ofDigitsBE_lt (b := 2 ^ 8) (ds := e.map BitVec.toNat) (by
    intro d hd; obtain ⟨b, -, rfl⟩ := List.mem_map.1 hd; exact b.isLt)
  rwa [List.length_map, ← Nat.pow_mul] at this

/-- R108: the checksum has L/4 bits. -/
theorem checksum_lt {e : List Byte} (h : e.length / 4 ≤ 8) : (checksum e).toNat < 2 ^ (e.length / 4) := by
  simp only [checksum, BitVec.toNat_ushiftRight, Nat.shiftRight_eq_div_pow]
  rw [Nat.div_lt_iff_lt_mul (by positivity), ← Nat.pow_add, show e.length / 4 + (8 - e.length / 4) = 8 by omega]
  exact (sha256 e)[0].isLt

/-- A group is a digit in base 2048 (R110). -/
theorem groupAt_eq (v n j : Nat) : groupAt v n j = v / (2 ^ 11) ^ (n - 1 - j) % 2 ^ 11 := by
  rw [groupAt, show 0x7FF = 2 ^ 11 - 1 by rfl, Nat.and_two_pow_sub_one_eq_mod, Nat.shiftRight_eq_div_pow, ← Nat.pow_mul]

theorem groupAt_lt (v n j : Nat) : groupAt v n j < 2 ^ 11 := by
  rw [groupAt_eq]; exact Nat.mod_lt _ (by decide)

/-- `V <- (V << 11) | IDX[j][10:0]` is the number with the indices as digits in base 2048, if each is one (R180). -/
theorem joinGroups_eq_ofDigitsBE (is : List Word) :
    joinGroups is = ofDigitsBE (2 ^ 11) (is.map fun i => i.toNat % 2 ^ 11) := by
  have step : ∀ (v : Nat) (i : Word), (v <<< 11) ||| (i.extractLsb' 0 11).toNat = v * 2 ^ 11 + i.toNat % 2 ^ 11 := by
    intro v i
    rw [BitVec.extractLsb'_toNat, Nat.shiftRight_zero,
      ← Nat.shiftLeft_add_eq_or_of_lt (Nat.mod_lt _ (by decide)), Nat.shiftLeft_eq]
  simp only [joinGroups, ofDigitsBE, List.foldl_map, step]

theorem joinGroups_lt (is : List Word) : joinGroups is < 2 ^ (11 * is.length) := by
  rw [joinGroups_eq_ofDigitsBE]
  have := ofDigitsBE_lt (b := 2 ^ 11) (ds := is.map fun i => i.toNat % 2 ^ 11) (by
    intro d hd; obtain ⟨b, -, rfl⟩ := List.mem_map.1 hd; exact Nat.mod_lt _ (by decide))
  rwa [List.length_map, ← Nat.pow_mul] at this

/-- The groups of a joined sequence are its indices (R110, R111). -/
theorem groupAt_joinGroups {is : List Word} (h : ∀ i ∈ is, i.toNat ≤ 2047) {j : Nat} (hj : j < is.length) :
    groupAt (joinGroups is) is.length j = is[j].toNat := by
  have hd := ofDigitsBE_digit (b := 2 ^ 11) (ds := is.map fun i => i.toNat % 2 ^ 11) (by
    intro d hd; obtain ⟨b, -, rfl⟩ := List.mem_map.1 hd; exact Nat.mod_lt _ (by decide)) (j := j) (by simpa using hj)
  rw [groupAt_eq, joinGroups_eq_ofDigitsBE]
  have h1 := h is[j] (List.getElem_mem hj)
  simp only [List.length_map, List.getElem_map] at hd
  rw [hd, Nat.mod_eq_of_lt (by omega)]

/-- Joining the groups of a stream of `n` groups gives the stream back (R110, R111, R187). -/
theorem joinGroups_groups {v n : Nat} (h : v < 2 ^ (11 * n)) :
    joinGroups ((List.range n).map fun j => BitVec.ofNat 32 (groupAt v n j)) = v := by
  rw [joinGroups_eq_ofDigitsBE, List.map_map]
  have e : (List.range n).map ((fun i : Word => i.toNat % 2 ^ 11) ∘ fun j => BitVec.ofNat 32 (groupAt v n j)) =
      (List.range n).map fun j => v / (2 ^ 11) ^ (n - 1 - j) % 2 ^ 11 := by
    apply List.map_congr_left
    intro j _
    have := groupAt_lt v n j
    simp only [Function.comp, BitVec.toNat_ofNat]
    rw [Nat.mod_eq_of_lt (show groupAt v n j < 2 ^ 32 by omega), Nat.mod_eq_of_lt this, groupAt_eq]
  rw [e, ofDigitsBE_digits, ← Nat.pow_mul, Nat.mod_eq_of_lt h]

/-- The bytes of a number, read back (R111). -/
@[simp] theorem length_bytesBE (len x : Nat) : (bytesBE len x).length = len := by simp [bytesBE]

theorem intBE_bytesBE (len x : Nat) : intBE (bytesBE len x) = x % 2 ^ (8 * len) := by
  rw [intBE_eq_ofDigitsBE, bytesBE, List.map_map]
  have e : (List.range len).map (BitVec.toNat ∘ fun q => BitVec.ofNat 8 (x >>> (8 * (len - 1 - q)))) =
      (List.range len).map fun q => x / (2 ^ 8) ^ (len - 1 - q) % 2 ^ 8 := by
    apply List.map_congr_left
    intro q _
    simp only [Function.comp, BitVec.toNat_ofNat]
    rw [Nat.shiftRight_eq_div_pow, ← Nat.pow_mul]
  rw [e, ofDigitsBE_digits, ← Nat.pow_mul]

/-- The bytes of `int_be(E)` are E (R187). -/
theorem bytesBE_intBE (e : List Byte) : bytesBE e.length (intBE e) = e := by
  have hb : ∀ (l : List Byte), ∀ d ∈ l.map BitVec.toNat, d < 2 ^ 8 := by
    intro l d hd; obtain ⟨b, -, rfl⟩ := List.mem_map.1 hd; exact b.isLt
  have h : (bytesBE e.length (intBE e)).map BitVec.toNat = e.map BitVec.toNat := by
    apply ofDigitsBE_injective (hb _) (hb _) (by simp)
    rw [← intBE_eq_ofDigitsBE, ← intBE_eq_ofDigitsBE, intBE_bytesBE, Nat.mod_eq_of_lt (intBE_lt e)]
  exact List.map_injective_iff.2 (fun _ _ h => BitVec.eq_of_toNat_eq h) h

/-- The packed stream of `e` split again: its entropy part and its checksum part (R109, R182). -/
theorem packedStream_div {e : List Byte} (h : e.length / 4 ≤ 8) : packedStream e / 2 ^ (e.length / 4) = intBE e := by
  rw [packedStream, Nat.mul_comm, Nat.mul_add_div (by positivity), Nat.div_eq_of_lt (checksum_lt h), Nat.add_zero]

theorem packedStream_mod {e : List Byte} (h : e.length / 4 ≤ 8) :
    packedStream e % 2 ^ (e.length / 4) = (checksum e).toNat := by
  rw [packedStream, Nat.mul_add_mod_self_right, Nat.mod_eq_of_lt (checksum_lt h)]

theorem packedStream_lt {e : List Byte} (h : e.length / 4 ≤ 8) :
    packedStream e < 2 ^ (8 * e.length + e.length / 4) := by
  rw [Nat.pow_add, ← Nat.div_lt_iff_lt_mul (by positivity), packedStream_div h]
  exact intBE_lt e

/-- R180: the split of a stream of `n` groups, as division. -/
theorem candidateEntropy_eq (v n : Nat) : candidateEntropy v n = bytesBE (4 * n / 3) (v / 2 ^ (n / 3)) := by
  rw [candidateEntropy, Nat.shiftRight_eq_div_pow]

theorem foundChecksum_toNat {v n : Nat} (h : n / 3 ≤ 8) : (foundChecksum v n).toNat = v % 2 ^ (n / 3) := by
  rw [foundChecksum, Nat.and_two_pow_sub_one_eq_mod, BitVec.toNat_ofNat, Nat.mod_eq_of_lt]
  exact Nat.lt_of_lt_of_le (Nat.mod_lt _ (by positivity)) (Nat.pow_le_pow_right (by decide) h)

/-! ## Index lists -/

@[simp] theorem length_indexList (idx : Vector Word 24) (n : Nat) : (indexList idx n).length = min n 24 := by
  simp [indexList]

theorem getElem_indexList (idx : Vector Word 24) (n : Nat) {j : Nat} (hj : j < (indexList idx n).length) :
    (indexList idx n)[j] = idx[j]'(by simp at hj; omega) := by
  simp [indexList]

/-- DECODE depends on the indices below the count alone (R180). -/
theorem indexList_congr {idx₁ idx₂ : Vector Word 24} {n : Nat}
    (h : ∀ j : Fin 24, j.val < n → idx₁[j] = idx₂[j]) : indexList idx₁ n = indexList idx₂ n := by
  apply List.ext_getElem (by simp)
  intro j h1 h2
  rw [getElem_indexList, getElem_indexList]
  simp at h1
  exact h ⟨j, by omega⟩ (by simp; omega)

/-- No index is unknown when each names a word (R183). -/
theorem firstUnknown_eq_none {is : List Word} : firstUnknown is = none ↔ ∀ i ∈ is, i.toNat ≤ 2047 := by
  simp [firstUnknown]

/-- The first unknown index is the lowest one (R183). -/
theorem firstUnknown_eq_some {is : List Word} {j : Nat} :
    firstUnknown is = some j ↔ ∃ h : j < is.length, 2047 < is[j].toNat ∧ ∀ k (hk : k < j), is[k].toNat ≤ 2047 := by
  simp [firstUnknown, List.findIdx?_eq_some_iff_getElem]

/-- The permitted sets, as numbers (R8, R130, R181). -/
theorem validEntLen_iff {len : Word} : validEntLen len = true ↔ len.toNat ∈ [16, 20, 24, 28, 32] := by
  simp [validEntLen]
theorem validWordCount_iff {n : Word} : validWordCount n = true ↔ n.toNat ∈ [12, 15, 18, 21, 24] := by
  simp [validWordCount]

end Sys2Proof.Machine
end

