-- ==== Sys2Proof/Laws/Codec.lean ====
section
/-! SUPPORT. ENCODE and DECODE as arithmetic: the bit streams of R109 and R111 as numbers, the index buffer, and what the two
commands do to a state whose operands are good. -/

namespace Sys2Proof.Machine

/-! ## Lengths and counts (R8, R151) -/

/-- The numbers of one row of the table, from the entropy length. -/
theorem lengths_of_entropy {l : Nat} (h : l ∈ [16, 20, 24, 28, 32]) :
    8 * l + l / 4 = 11 * (3 * l / 4) ∧ l / 4 ≤ 8 ∧ 3 * l / 4 / 3 = l / 4 ∧ 4 * (3 * l / 4) / 3 = l ∧
      3 * l / 4 ≤ 24 ∧ l ≤ 32 ∧ 3 * l / 4 ∈ [12, 15, 18, 21, 24] := by
  simp at h ⊢; omega

/-- The numbers of one row of the table, from the word count. -/
theorem lengths_of_count {n : Nat} (h : n ∈ [12, 15, 18, 21, 24]) :
    n / 3 ≤ 8 ∧ 11 * n = 8 * (4 * n / 3) + n / 3 ∧ 4 * n / 3 / 4 = n / 3 ∧ 3 * (4 * n / 3) / 4 = n ∧
      4 * n / 3 ∈ [16, 20, 24, 28, 32] ∧ n ≤ 24 := by
  simp at h ⊢; omega

/-! ## Bit streams as numbers -/

/-- A bit of a byte string is a bit of `int_be` (R13, R110). -/
theorem byteStringBit_eq {e : List Byte} {k : Nat} (hk : k < 8 * e.length) :
    byteStringBit e k = (intBE e).testBit (8 * e.length - 1 - k) := by
  rw [intBE_eq_ofDigitsBE]
  have h := ofDigitsBE_testBit (b := 8) (by decide) (ds := e.map BitVec.toNat) (by
    intro d hd; obtain ⟨b, -, rfl⟩ := List.mem_map.1 hd; exact b.isLt) (k := k) (by simpa using hk)
  rw [List.length_map] at h
  rw [h, byteStringBit]
  have h1 : k / 8 < e.length := by omega
  rw [List.getD_eq_getElem _ _ h1, List.getD_eq_getElem _ _ (by simpa using h1)]
  simp [BitVec.testBit_toNat]

/-- A bit of the packed stream is a bit of its number (R109, R110). -/
theorem streamBit_eq {e : List Byte} (h : e.length / 4 ≤ 8) {k : Nat} (hk : k < 8 * e.length + e.length / 4) :
    streamBit e k = (packedStream e).testBit (8 * e.length + e.length / 4 - 1 - k) := by
  unfold streamBit
  split
  · rename_i h1
    rw [byteStringBit_eq h1, ← packedStream_div h, Nat.testBit_div_two_pow]; congr 1; omega
  · rename_i h1
    have h2 : 8 * e.length + e.length / 4 - 1 - k < e.length / 4 := by omega
    have h3 : (packedStream e).testBit (8 * e.length + e.length / 4 - 1 - k) =
        (packedStream e % 2 ^ (e.length / 4)).testBit (8 * e.length + e.length / 4 - 1 - k) := by
      rw [Nat.testBit_mod_two_pow]; simp [h2]
    rw [h3, packedStream_mod h, BitVec.testBit_toNat]; congr 1; omega

/-- A bit of an index sequence is a bit of its joined number (R111). -/
theorem indexStreamBit_eq {is : List Word} (h : ∀ i ∈ is, i.toNat ≤ 2047) {k : Nat} (hk : k < 11 * is.length) :
    indexStreamBit is k = (joinGroups is).testBit (11 * is.length - 1 - k) := by
  rw [joinGroups_eq_ofDigitsBE]
  have hd := ofDigitsBE_testBit (b := 11) (by decide) (ds := is.map fun i => i.toNat % 2 ^ 11) (by
    intro d hd; obtain ⟨b, -, rfl⟩ := List.mem_map.1 hd; exact Nat.mod_lt _ (by decide)) (k := k) (by simpa using hk)
  rw [List.length_map] at hd
  rw [hd, indexStreamBit]
  have h1 : k / 11 < is.length := by omega
  rw [List.getD_eq_getElem _ _ h1, List.getD_eq_getElem _ _ (by simpa using h1)]
  have h2 := h is[k / 11] (List.getElem_mem h1)
  simp only [List.getElem_map]
  rw [Nat.mod_eq_of_lt (show is[k / 11].toNat < 2 ^ 11 by omega), BitVec.testBit_toNat]

/-- One index more (R180). -/
theorem joinGroups_concat (is : List Word) (i : Word) :
    joinGroups (is ++ [i]) = joinGroups is * 2 ^ 11 + i.toNat % 2 ^ 11 := by
  simp only [joinGroups_eq_ofDigitsBE, List.map_append, List.map_singleton, ofDigitsBE_append_singleton]

/-! ## The buffers -/

/-- The entropy bytes as a selection from the 32 positions (R105). -/
theorem filterMap_entByte (ent : Vector Word 8) {l : Nat} (h : l ≤ 32) :
    (List.finRange 32).filterMap (fun i => if i.val < l then some (entByte ent i) else none) = entropyBytes ent l := by
  have hall : ∀ m : Fin 33, ((List.finRange 32).filterMap fun i => if i.val < m.val then some i else none) =
      (List.finRange 32).take m.val := by decide +kernel
  have hl := hall ⟨l, by omega⟩
  simp only at hl
  rw [entropyBytes, ← hl, List.map_filterMap]
  congr 1; funext i; split <;> simp

/-- A sum over the first `n` of 24 positions (R111). -/
theorem sum_finRange (f : Nat → Nat) {n : Nat} (hn : n ≤ 24) :
    ((List.finRange 24).map fun j => if j.val < n then f j.val else 0).sum = ((List.range n).map f).sum := by
  have h1 : (List.finRange 24).map (fun j : Fin 24 => if j.val < n then f j.val else 0) =
      (List.range 24).map (fun j => if j < n then f j else 0) := by
    rw [show List.range 24 = (List.finRange 24).map Fin.val by decide, List.map_map]; rfl
  have h2 : List.map ((fun j => if j < n then f j else 0) ∘ fun x => n + x) (List.range (24 - n)) =
      List.map (fun _ => 0) (List.range (24 - n)) := by
    apply List.map_congr_left; intro a _; simp
  have h3 : List.map (fun j => if j < n then f j else 0) (List.range n) = List.map f (List.range n) := by
    apply List.map_congr_left; intro a ha; simp [List.mem_range.1 ha]
  rw [h1, show 24 = n + (24 - n) by omega, List.range_add, List.map_append, List.sum_append, List.map_map, h2, h3]
  simp

/-- IDX after ENCODE: a group, or zero after the last one (R150). -/
theorem toNat_indexBuffer {v n : Nat} (j : Fin 24) (h : j.val < n) : ((indexBuffer v n)[j]).toNat = groupAt v n j.val := by
  have := groupAt_lt v n j.val
  rw [Fin.getElem_fin, indexBuffer, Vector.getElem_ofFn, if_pos h, BitVec.toNat_ofNat]
  exact Nat.mod_eq_of_lt (show groupAt v n j.val < 2 ^ 32 by omega)

theorem indexBuffer_zero {v n : Nat} (j : Fin 24) (h : ¬ j.val < n) : (indexBuffer v n)[j] = 0 := by
  rw [Fin.getElem_fin, indexBuffer, Vector.getElem_ofFn, if_neg h]

theorem indexList_indexBuffer {v n : Nat} (h : n ≤ 24) :
    indexList (indexBuffer v n) n = (List.range n).map fun j => BitVec.ofNat 32 (groupAt v n j) := by
  apply List.ext_getElem (by simp [h])
  intro j h1 h2
  simp at h2
  rw [getElem_indexList]
  simp [indexBuffer, h2]

/-! ## ENCODE and DECODE on good operands -/

/-- ENCODE of a permitted length (R150). -/
theorem exec_encode_of_valid {s : State} (hv : s.entLen.toNat ∈ [16, 20, 24, 28, 32]) :
    exec .encode s = .next (completeOk (writeMnemonic (entropyBytes s.ent s.entLen.toNat) s)) := by
  simp only [exec, execEncode, validEntLen_iff.2 hv, if_true]

/-- Indices that all name a word, as a list (R183). -/
theorem indexList_known {s : State} (h : ∀ j : Fin 24, j.val < s.wcount.toNat → (s.idx[j]).toNat ≤ 2047) :
    ∀ i ∈ indexList s.idx s.wcount.toNat, i.toNat ≤ 2047 := by
  intro i hi
  obtain ⟨j, hj, rfl⟩ := List.getElem_of_mem hi
  rw [getElem_indexList]; simp at hj; exact h ⟨j, by omega⟩ (by simp; omega)

/-- DECODE of a permitted count of indices that all name a word (R180 steps 3 to 6). -/
theorem exec_decode_of_known {s : State} (hv : s.wcount.toNat ∈ [12, 15, 18, 21, 24])
    (h : ∀ j : Fin 24, j.val < s.wcount.toNat → (s.idx[j]).toNat ≤ 2047) :
    exec .decode s =
      .next (decodeStream (joinGroups (indexList s.idx s.wcount.toNat)) s.wcount.toNat s) := by
  simp only [exec, execDecode, validWordCount_iff.2 hv, if_true, firstUnknown_eq_none.2 (indexList_known h)]

/-- DECODE of the groups ENCODE makes of `e` gives `e` back (R187). -/
theorem exec_decode_of_groups {s : State} {e : List Byte} (he : e.length ∈ [16, 20, 24, 28, 32])
    (hw : s.wcount.toNat = 3 * e.length / 4)
    (hi : ∀ j : Fin 24, j.val < 3 * e.length / 4 →
      (s.idx[j]).toNat = groupAt (packedStream e) (3 * e.length / 4) j.val) :
    exec .decode s = .next (completeOk (writeEntropy e (checksum e) s)) := by
  obtain ⟨h1, h2, h3, h4, h5, -, h7⟩ := lengths_of_entropy he
  have hg := groupAt_lt (packedStream e) (3 * e.length / 4)
  rw [exec_decode_of_known (hw ▸ h7) fun j hj => by rw [hi j (hw ▸ hj)]; have := hg j.val; omega]
  have hl : indexList s.idx s.wcount.toNat =
      (List.range (3 * e.length / 4)).map fun j => BitVec.ofNat 32 (groupAt (packedStream e) (3 * e.length / 4) j) := by
    apply List.ext_getElem (by simp [hw, h5])
    intro j g1 g2
    simp at g2
    rw [getElem_indexList]
    simp only [List.getElem_map, List.getElem_range]
    apply BitVec.eq_of_toNat_eq
    have h := hi ⟨j, by omega⟩ (by simp; omega)
    have := hg j
    rw [BitVec.toNat_ofNat, Nat.mod_eq_of_lt (by omega)]
    exact h
  rw [hl, joinGroups_groups (by rw [← h1]; exact packedStream_lt h2), hw]
  have hc : candidateEntropy (packedStream e) (3 * e.length / 4) = e := by
    rw [candidateEntropy_eq, h3, h4, packedStream_div h2, bytesBE_intBE]
  have hf : foundChecksum (packedStream e) (3 * e.length / 4) = checksum e := by
    apply BitVec.eq_of_toNat_eq
    rw [foundChecksum_toNat (by omega), h3, packedStream_mod h2]
  rw [decodeStream]; simp only [hc, hf, if_true]

/-- What a successful DECODE says of its operands and its results (R180, R185). -/
theorem exec_decode_accepted {s u : State} (h : exec .decode s = .next u) (he : u.errCode = 0) :
    s.wcount.toNat ∈ [12, 15, 18, 21, 24] ∧ (∀ i ∈ indexList s.idx s.wcount.toNat, i.toNat ≤ 2047) ∧
    checksum (candidateEntropy (joinGroups (indexList s.idx s.wcount.toNat)) s.wcount.toNat) =
      foundChecksum (joinGroups (indexList s.idx s.wcount.toNat)) s.wcount.toNat ∧
    u = completeOk (writeEntropy (candidateEntropy (joinGroups (indexList s.idx s.wcount.toNat)) s.wcount.toNat)
      (foundChecksum (joinGroups (indexList s.idx s.wcount.toNat)) s.wcount.toNat) s) := by
  obtain ⟨-, h'⟩ | ⟨-, j, -, h'⟩ | ⟨hv, hk, h'⟩ := execDecode_cases s <;> rw [exec, h'] at h <;> cases h
  · exact absurd he (raiseError_failed _ _ _)
  · exact absurd he (raiseError_failed _ _ _)
  · obtain ⟨h1, hd⟩ | ⟨-, hd⟩ :=
      decodeStream_cases (joinGroups (indexList s.idx s.wcount.toNat)) s.wcount.toNat s
    · exact ⟨validWordCount_iff.1 hv, firstUnknown_eq_none.1 hk, h1, hd⟩
    · rw [hd] at he; exact absurd he (raiseError_failed _ _ _)

/-- A stream is the packed stream of the entropy it holds exactly when its checksum matches (R182, R188). -/
theorem packedStream_candidateEntropy_iff {v n : Nat} (hn : n ∈ [12, 15, 18, 21, 24]) (hv : v < 2 ^ (11 * n)) :
    packedStream (candidateEntropy v n) = v ↔ checksum (candidateEntropy v n) = foundChecksum v n := by
  obtain ⟨h1, h2, h3, -, -, -⟩ := lengths_of_count hn
  have hl : (candidateEntropy v n).length = 4 * n / 3 := by simp [candidateEntropy]
  have hi : intBE (candidateEntropy v n) = v / 2 ^ (n / 3) := by
    rw [candidateEntropy_eq, intBE_bytesBE, Nat.mod_eq_of_lt]
    rw [Nat.div_lt_iff_lt_mul (by positivity), ← Nat.pow_add, ← h2]; exact hv
  have hf := foundChecksum_toNat (v := v) h1
  rw [packedStream, hl, h3, hi]
  have hdm := Nat.div_add_mod v (2 ^ (n / 3))
  rw [Nat.mul_comm] at hdm
  rw [← BitVec.toNat_inj, hf]
  constructor <;> intro h <;> omega

end Sys2Proof.Machine
end

