-- ==== Sys2Proof/Laws/Host.lean ====
section
/-! SUPPORT. Scripts of the host (30_encoding.md R113): what a list of events does to a state, whatever events follow it. -/

namespace Sys2Proof.Machine

/-- The events of `script` lead from `s` to `t`, whatever follows them in the agenda. -/
def Performs (script : List Event) (s t : State) : Prop :=
  ∀ rest, runSteps script.length { s with agenda := script ++ rest } = .next { t with agenda := rest }

theorem performs_nil (s : State) : Performs [] s s := fun _ => rfl

theorem Performs.append {a b : List Event} {s t u : State} (h₁ : Performs a s t) (h₂ : Performs b t u) :
    Performs (a ++ b) s u := by
  intro rest
  have h := h₁ (b ++ rest)
  rw [List.append_assoc, List.length_append, runSteps_add h]
  exact h₂ rest

theorem Performs.runScript {script : List Event} {s t : State} (h : Performs script s t) :
    runScript script s = .next { t with agenda := [] } := by
  have := h []
  rwa [List.append_nil] at this

/-- A completion passes the agenda and the response through. -/
theorem exec_with {i : Instr} {s u : State} (agenda : List Event) (response : Option Response) (h : exec i s = .next u) :
    exec i { s with agenda := agenda, response := response } = .next { u with agenda := agenda, response := response } := by
  have h2 := exec_passes_through s.ctrlIe s.statusOvr agenda response s.draws h
  obtain ⟨-, -, c3, c4, -, -, -, c8⟩ := exec_control h
  rw [h2, c3, c4, c8]

/-- One event is one step. -/
theorem performs_one {e : Event} {s t : State}
    (h : ∀ rest, step { s with agenda := e :: rest } = .next { t with agenda := rest }) : Performs [e] s t := by
  intro rest
  exact runSteps_succ (h rest)

/-- A legal write to the idle block. -/
theorem performs_wr {s : State} {off : BitVec 8} (v : Word) (ha : off.toNat % 4 = 0) (hb : s.statusBusy = false) :
    Performs [wr off v] s (respond .okay 0 (storeRegister (regAt off) v s)) := by
  refine performs_one fun rest => (step_wr rfl ha).trans ?_
  congr 1
  unfold writeRegister
  rw [if_neg (by simp [hb])]
  cases regAt off <;> rfl

/-- A read of STATUS, which answers its value and changes nothing (R74). -/
theorem performs_rdStatus (s : State) : Performs [rd 0x08] s (respond .okay (statusWord s) s) := by
  refine performs_one fun rest => (step_rd rfl (by decide)).trans ?_
  rw [show (0x08 : BitVec 8) = 0x08#8 by rfl, regAt_status]
  simp [readValue, afterRead, busyUnspecified, registerValue, respond, statusWord, State.statusErr]

/-- The completion of the command in flight (R252). -/
theorem performs_completion {s u : State} (hb : s.statusBusy = true) (h : exec (decode s.pend) s = .next u) :
    Performs [.completion] s u := by
  refine performs_one fun rest => (step_completion (s := { s with agenda := .completion :: rest }) rfl hb).trans ?_
  exact (exec_with rest s.response h).trans (by rw [← (exec_control h).2.2.2.2.2.2.1])

/-- Busy reads of STATUS change nothing but the response. -/
theorem performs_busyPolls (n : Nat) (s : State) :
    ∃ r, Performs (List.replicate n (rd 0x08)) s { s with response := r } := by
  induction n generalizing s with
  | zero => exact ⟨s.response, performs_nil s⟩
  | succ n ih =>
    obtain ⟨r, h⟩ := ih (respond .okay (statusWord s) s)
    exact ⟨r, (performs_rdStatus s).append h⟩

/-- POLL: busy reads, the completion, and the read that sees DONE (R113). -/
theorem performs_poll {s u : State} (n : Nat) (hb : s.statusBusy = true) (h : exec (decode s.pend) s = .next u) :
    ∃ r, Performs (poll n) s { u with response := r } := by
  obtain ⟨r, h1⟩ := performs_busyPolls n s
  have h2 := performs_completion (s := { s with response := r }) (u := { u with response := r }) hb
    ((exec_with s.agenda r h).trans (by rw [← (exec_control h).2.2.2.2.2.1]))
  exact ⟨_, h1.append (h2.append (performs_rdStatus _))⟩

/-- RUN op on the idle block: the command of `op` on the state its issue leaves (R113, R250, R252). -/
theorem performs_run {s u : State} (op : Word) (n : Nat) (hb : s.statusBusy = false)
    (h : exec (decode op) (issue op s) = .next u) : ∃ r, Performs (run op n) s { u with response := r } := by
  have h1 := performs_wr (s := s) (off := 0x04) op (by decide) hb
  rw [show (0x04 : BitVec 8) = 0x04#8 by rfl, regAt_cmd] at h1
  obtain ⟨r, h3⟩ := performs_poll (s := respond .okay 0 (issue op s)) (u := { u with response := some ⟨.okay, 0⟩ }) n rfl
    ((exec_with s.agenda (some ⟨.okay, 0⟩) h).trans (by rw [← show u.agenda = s.agenda from (exec_control h).2.2.2.2.2.1]))
  exact ⟨r, h1.append h3⟩

/-- A computed offset inside the window (R112). -/
theorem wrAt_of_lt {off : Nat} {v : Word} (h : off < 256) : wrAt off v = wr (BitVec.ofNat 8 off) v := if_pos h

/-- A write at a computed offset is the bus write at `BASE + off`, inside the window or not (R71, R112). -/
theorem wrAt_eq_memWrite (off : Nat) (v : Word) : wrAt off v = memWrite (Config.base + off) v := by
  unfold wrAt memWrite decodeAddress wr
  by_cases h : off < 256
  · rw [if_pos h, if_pos (by omega), Nat.add_sub_cancel_left]
  · rw [if_neg h, if_neg (by omega)]

/-- `n` writes to IDX in order, on the idle block (R113). -/
theorem performs_idxWrites {s : State} (f : Nat → Word) {n : Nat} (hn : n ≤ 24) (hb : s.statusBusy = false) :
    ∃ idx r, Performs ((List.range n).map fun j => wrAt (0x60 + 4 * j) (f j)) s
        { s with idx := idx, response := r } ∧
      ∀ j : Fin 24, idx[j] = if j.val < n then f j.val else s.idx[j] := by
  induction n with
  | zero => exact ⟨s.idx, s.response, performs_nil s, fun j => by simp⟩
  | succ n ih =>
    obtain ⟨idx, r, h, hi⟩ := ih (by omega)
    have hoff : (BitVec.ofNat 8 (0x60 + 4 * n)).toNat % 4 = 0 := by rw [BitVec.toNat_ofNat]; omega
    have hw := performs_wr (s := { s with idx := idx, response := r }) (f n) hoff hb
    rw [regAt_idx ⟨n, by omega⟩] at hw
    rw [List.range_succ, List.map_append, List.map_singleton, wrAt_of_lt (by omega)]
    refine ⟨idx.set n (f n) (by omega), some ⟨.okay, 0⟩, h.append hw, fun j => ?_⟩
    rw [Fin.getElem_fin, Vector.getElem_set]
    split
    · rename_i e; subst e; simp
    · rename_i e
      have := hi j
      rw [Fin.getElem_fin] at this
      rw [this]
      simp only [show (j.val < n + 1) = (j.val < n) from propext ⟨fun _ => by omega, fun _ => by omega⟩]

/-- `n` writes to ENT in order, on the idle block (R113). -/
theorem performs_entWrites {s : State} (f : Nat → Word) {n : Nat} (hn : n ≤ 8) (hb : s.statusBusy = false) :
    ∃ ent r, Performs ((List.range n).map fun k => wrAt (0x20 + 4 * k) (f k)) s
        { s with ent := ent, response := r } ∧
      ∀ k : Fin 8, ent[k] = if k.val < n then f k.val else s.ent[k] := by
  induction n with
  | zero => exact ⟨s.ent, s.response, performs_nil s, fun j => by simp⟩
  | succ n ih =>
    obtain ⟨ent, r, h, hi⟩ := ih (by omega)
    have hoff : (BitVec.ofNat 8 (0x20 + 4 * n)).toNat % 4 = 0 := by rw [BitVec.toNat_ofNat]; omega
    have hw := performs_wr (s := { s with ent := ent, response := r }) (f n) hoff hb
    rw [regAt_ent ⟨n, by omega⟩] at hw
    rw [List.range_succ, List.map_append, List.map_singleton, wrAt_of_lt (by omega)]
    refine ⟨ent.set n (f n) (by omega), some ⟨.okay, 0⟩, h.append hw, fun j => ?_⟩
    rw [Fin.getElem_fin, Vector.getElem_set]
    split
    · rename_i e; subst e; simp
    · rename_i e
      have := hi j
      rw [Fin.getElem_fin] at this
      rw [this]
      simp only [show (j.val < n + 1) = (j.val < n) from propext ⟨fun _ => by omega, fun _ => by omega⟩]

/-- LOAD_ENT on the idle block (R113). -/
theorem performs_loadEnt {s : State} (e : List Byte) (he : e.length ≤ 32) (hb : s.statusBusy = false) :
    ∃ ent r, Performs (loadEnt e) s { s with entLen := BitVec.ofNat 32 e.length, ent := ent, response := r } ∧
      ∀ i : Fin 32, i.val < e.length → entByte ent i = e.getD i.val 0 := by
  have h1 := performs_wr (s := s) (off := 0x14) (BitVec.ofNat 32 e.length) (by decide) hb
  rw [show (0x14 : BitVec 8) = 0x14#8 by rfl, regAt_entLen] at h1
  obtain ⟨ent, r, h2, h3⟩ :=
    performs_entWrites (s := respond .okay 0 (storeRegister .entLen (BitVec.ofNat 32 e.length) s))
      (fun k => wordOfBytes (e.getD (4 * k) 0) (e.getD (4 * k + 1) 0) (e.getD (4 * k + 2) 0) (e.getD (4 * k + 3) 0))
      (n := (e.length + 3) / 4) (by omega) hb
  refine ⟨ent, r, h1.append h2, fun i hi => ?_⟩
  have h4 := h3 ⟨i.val / 4, by omega⟩
  rw [if_pos (show i.val / 4 < (e.length + 3) / 4 by omega)] at h4
  rw [← entByte_packEntropy]
  simp only [entByte, packEntropy, Vector.getElem_ofFn]
  congr 1

/-- LOAD_IDX on the idle block (R113). -/
theorem performs_loadIdx {s : State} (is : List Word) (h : is.length ≤ 24) (hb : s.statusBusy = false) :
    ∃ idx r, Performs (loadIdx is) s { s with wcount := BitVec.ofNat 32 is.length, idx := idx, response := r } ∧
      ∀ j : Fin 24, idx[j] = if j.val < is.length then is.getD j.val 0 else s.idx[j] := by
  have h1 := performs_wr (s := s) (off := 0x18) (BitVec.ofNat 32 is.length) (by decide) hb
  rw [show (0x18 : BitVec 8) = 0x18#8 by rfl, regAt_wcount] at h1
  obtain ⟨idx, r, h2, h3⟩ :=
    performs_idxWrites (s := respond .okay 0 (storeRegister .wcount (BitVec.ofNat 32 is.length) s))
      (fun k => is.getD k 0) h hb
  exact ⟨idx, r, h1.append h2, h3⟩

/-! ## The word layer (48_host_words.md) -/

/-- `W⁻¹(W[i]) = i` (R271). -/
theorem indexOf_word (W : Wordlist) (i : Fin 2048) : W.indexOf (W.word i) = some i := by
  unfold Wordlist.indexOf
  rw [List.find?_eq_some_iff_getElem]
  refine ⟨beq_self_eq_true _, i.val, by simp, by simp, ?_⟩
  intro j hj
  rw [List.getElem_finRange, Bool.not_eq_true', beq_eq_false_iff_ne]
  intro h
  have hv := congrArg Fin.val (W.injective _ _ h)
  simp only [Fin.val_cast] at hv
  omega

/-- A string that is no word of W has no index (R271). -/
theorem indexOf_eq_none {W : Wordlist} {w : String} (h : ∀ i, W.word i ≠ w) : W.indexOf w = none := by
  unfold Wordlist.indexOf
  rw [List.find?_eq_none]
  intro i _
  simpa using h i

/-- The lookup of words that are in W (R273). -/
theorem lookupWords_known (W : Wordlist) (is : List (Fin 2048)) (b : Nat) :
    lookupWords W (is.map W.word) b = .ok (is.map fun i => BitVec.ofNat 32 i.val) := by
  induction is generalizing b with
  | nil => rfl
  | cons i is ih => rw [List.map_cons, lookupWords, indexOf_word]; simp only [ih]; rfl

/-- host_encode, once its script's run is known (R272). -/
theorem hostEncode_of_run {W : Wordlist} {polls : Nat} {e : List Byte} {s t : State}
    {answer : Except HostError (List String)}
    (h : runScript (hostEncodeOperands e ++ run (encode .encode) polls) s = .next t)
    (ha : hostEncodeAnswer W t = answer) : hostEncode W polls e s = .next (answer, t) := by
  rw [hostEncode, h, ← ha]

/-- host_decode, once its lookup and its script's run are known (R273). -/
theorem hostDecode_of_run {W : Wordlist} {polls : Nat} {words : List String} {indices : List Word} {s t : State}
    (hl : words.length ∈ [12, 15, 18, 21, 24]) (hw : lookupWords W words 0 = .ok indices)
    {answer : Except HostError (List Byte)}
    (h : runScript (loadIdx indices ++ run (encode .decode) polls) s = .next t)
    (ha : hostDecodeAnswer t = answer) : hostDecode W polls words s = .next (answer, t) := by
  rw [hostDecode, if_pos hl, hw]
  simp only [h, ha]

end Sys2Proof.Machine
end

