-- ==== Sys2Proof/Laws/PerInstr.lean ====
section
/-! SUPPORT. Statements made once per instruction: the MBZ field of every command word (30_encoding.md R100, R101). -/

namespace Sys2Proof.Laws

/-- R100: bits 31:4 of a command's word are zero; only a word of the default row may have others. -/
def MbzZero.Statement (i : Instr) : Prop := mbzField (encode i) = 0 ∨ ∃ w, i = .illegal w

theorem MbzZero.validate : MbzZero.Statement .validate := .inl (by decide)
theorem MbzZero.encode : MbzZero.Statement .encode := .inl (by decide)
theorem MbzZero.decode : MbzZero.Statement .decode := .inl (by decide)
theorem MbzZero.hash : MbzZero.Statement .hash := .inl (by decide)
theorem MbzZero.clear : MbzZero.Statement .clear := .inl (by decide)
theorem MbzZero.illegal (w : Word) : MbzZero.Statement (.illegal w) := .inr ⟨w, rfl⟩

end Sys2Proof.Laws
end

