-- ==== Sys2Proof/Tests/Slice0.lean ====
section
/-! SUPPORT. Tests of one step each, with results written out from spec/95_test_vectors.md and from the rules' own examples,
and a witness for the hypotheses of every statement of the row. -/

namespace Sys2Proof.Tests

open Sys2Proof.Machine

/-! ## Small states -/

def entOf (l : List Word) : Vector Word 8 := Vector.ofFn fun k => l.getD k.val 0
def idxOf (l : List Word) : Vector Word 24 := Vector.ofFn fun j => l.getD j.val 0

/-- An idle block with operands in place. -/
def idle (entLen : Word) (ent : List Word) (wcount : Word) (idx : List Word) : State :=
  { State.reset with entLen := entLen, ent := entOf ent, wcount := wcount, idx := idxOf idx }

/-- The block with a command in flight and the events `agenda` to come. -/
def busy (op : Word) (agenda : List Event) (s : State) : State :=
  { s with statusBusy := true, pend := op, agenda := agenda }

/-- One event on a state. -/
def at1 (e : Event) (s : State) : State := { s with agenda := [e] }

/-- A field of the next state. -/
def after (o : Host.Outcome State Fault Refusal) (f : State → α) : Option α :=
  match o with
  | .next t => some (f t)
  | .fault _ => none
  | .refused _ => none

/-- The next state. -/
def nextOf (o : Host.Outcome State Fault Refusal) : State :=
  match o with
  | .next t => t
  | .fault r => r.casesOn
  | .refused _ => State.reset

def ones16 : State := idle 16 [0xFFFFFFFF, 0xFFFFFFFF, 0xFFFFFFFF, 0xFFFFFFFF] 0 []
def d1 : State := idle 0 [] 12 [0, 0, 0, 0, 0, 0, 0, 0, 0, 0, 0, 3]
def d5 : State := idle 0 [] 12 []
def d11 : State := idle 0 [] 12 [0, 0, 0, 0, 0, 0x800, 0, 0xFFFF, 0, 0, 0, 3]
def e17Indices : List Word :=
  [0x000, 0x040, 0x406, 0x040, 0x283, 0x01C, 0x101, 0x10A, 0x058, 0x303, 0x21C, 0x0F1] ++
  [0x008, 0x448, 0x262, 0x415, 0x0B0, 0x5C6, 0x032, 0x1A1, 0x58E, 0x074, 0x3C3, 0x763]
def e17Words : List Word :=
  [0x00010203, 0x04050607, 0x08090A0B, 0x0C0D0E0F, 0x10111213, 0x14151617, 0x18191A1B, 0x1C1D1E1F]

/-! ## WellFormed refuses an ill-formed term: a default-row term that carries a command's word (R255) -/

theorem test_illegal_1_is_ill_formed : ¬ WellFormed (.illegal 1) := by decide
theorem test_illegal_2_is_ill_formed : ¬ WellFormed (.illegal 2) := by decide
theorem test_illegal_3_is_ill_formed : ¬ WellFormed (.illegal 3) := by decide
theorem test_illegal_4_is_ill_formed : ¬ WellFormed (.illegal 4) := by decide
theorem test_illegal_5_is_ill_formed : ¬ WellFormed (.illegal 5) := by decide
theorem test_illegal_0_6_12_are_well_formed :
    WellFormed (.illegal 0) ∧ WellFormed (.illegal 6) ∧ WellFormed (.illegal 0x12) := by decide

/-! ## Decoding: words written bit by bit from 30_encoding.md R101 (MBZ 31:4, then OP 3:0) -/

theorem test_decode_validate : decode 0b0000000000000000000000000000_0001 = .validate := by decide
theorem test_decode_encode : decode 0b0000000000000000000000000000_0010 = .encode := by decide
theorem test_decode_decode : decode 0b0000000000000000000000000000_0011 = .decode := by decide
theorem test_decode_hash : decode 0b0000000000000000000000000000_0100 = .hash := by decide
theorem test_decode_clear : decode 0b0000000000000000000000000000_0101 = .clear := by decide
theorem test_decode_illegal : decode 0b0000000000000000000000000001_0010 = .illegal 0x12 := by decide
theorem test_encode_words :
    [Instr.validate, .encode, .decode, .hash, .clear, .illegal 0xFFFFFFFF].map encode =
      [0x00000001, 0x00000002, 0x00000003, 0x00000004, 0x00000005, 0xFFFFFFFF] := by decide
theorem test_decodeTableWord : decodeTableWord 32 3 = some .decode ∧ decodeTableWord 4 5 = some .clear ∧
    decodeTableWord 32 0x80000001 = some (.illegal 0x80000001) ∧ decodeTableWord 33 1 = none := by decide
theorem test_withFetchWord_runs_next :
    after (step (State.reset.withFetchWord 32 6)) (fun t => (t.errCode, t.errInfo, t.pend)) = some (6, 6, 6) := by decide

/-! ## Commands (95_test_vectors.md sections 1.2, 2.1 to 2.4) -/

theorem test_validate_17_bytes :
    after (step (busy 1 [] (idle 0x11 [] 0 []))) (fun t => (t.errCode, t.errInfo, statusWord t)) =
      some (1, 0x11, 0x6) := by decide
theorem test_validate_whole_word :
    after (step (busy 1 [] (idle 0x110 [] 0 []))) (fun t => (t.errCode, t.errInfo, statusWord t)) =
      some (1, 0x110, 0x6) := by decide
/-- E2. -/
theorem test_encode_ff16 :
    after (step (busy 2 [] ones16)) (fun t => (t.wcount, t.csum, t.idx[0], t.idx[11], t.idx[12])) =
      some (12, 0x5, 0x7FF, 0x7F5, 0) := by decide +kernel
/-- E17. -/
theorem test_encode_32_bytes :
    after (step (busy 2 [] (idle 32 e17Words 0 []))) (fun t => (t.wcount, t.csum, t.idx)) =
      some (24, 0x63, idxOf e17Indices) := by decide +kernel
/-- D3. -/
theorem test_decode_24_words :
    after (step (busy 3 [] (idle 0 [] 24 e17Indices))) (fun t => (t.errCode, t.entLen, t.csum, t.ent)) =
      some (0, 0x20, 0x63, entOf e17Words) := by decide +kernel
/-- D7. -/
theorem test_decode_checksum_mismatch :
    after (step (busy 3 [] (idle 0 [] 12 [1, 0, 0, 0, 0, 0, 0, 0, 0, 0, 0, 3])))
      (fun t => (t.errCode, t.errInfo, statusWord t, t.entLen)) = some (4, 0x00000D03, 0x6, 0) := by decide +kernel
/-- H3. -/
theorem test_hash_abc :
    after (step (busy 4 [] (idle 3 [0x616263FF] 0 []))) (fun t => t.digest) =
      some #v[0xBA7816BF, 0x8F01CFEA, 0x414140DE, 0x5DAE2223, 0xB00361A3, 0x96177A9C, 0xB410FF61, 0xF20015AD] := by
  decide +kernel
/-- H6. -/
theorem test_hash_33_bytes :
    after (step (busy 4 [] (idle 0x21 [] 0 []))) (fun t => (t.errCode, t.errInfo, statusWord t)) =
      some (7, 0x21, 0x6) := by decide
/-- K1, with OVR set. -/
theorem test_clear_buffers :
    after (step (busy 5 [] { idle 16 [1] 12 [2] with csum := 3 })) (fun t => (t.ent[0], t.idx[0], t.entLen, t.wcount, t.csum)) =
      some (0, 0, 0, 0, 0) := by decide
theorem test_clear_keeps_ctrl_and_ovr :
    after (step (busy 5 [] { State.reset with ctrlIe := true, statusOvr := true })) (fun t => (statusWord t, t.ctrlIe)) =
      some (0xA, true) := by decide
/-- I4. -/
theorem test_illegal_mbz :
    after (step (busy 0x12 [] State.reset)) (fun t => (t.errCode, t.errInfo)) = some (6, 0x12) := by decide

/-! ## The bus (95_test_vectors.md section 2.5) -/

/-- B6. -/
theorem test_ctrl_write : after (step (at1 (wr 0x00 0xFFFFFFFF) State.reset)) ctrlWord = some 1 := by decide
/-- B7. -/
theorem test_status_w1c :
    after (step (at1 (wr 0x08 0x2) { State.reset with statusDone := true, statusOvr := true })) statusWord =
      some 0x8 := by decide
/-- B9. -/
theorem test_busy_write_dropped :
    after (step (busy 1 [wr 0xBC 7] State.reset)) (fun t => (t.idx[23], statusWord t)) = some (0, 0x9) := by decide
/-- R31: the last register of each buffer. -/
theorem test_register_map :
    regAt 0x3C = .ent 7 ∧ regAt 0x40 = .digest 0 ∧ regAt 0x5C = .digest 7 ∧ regAt 0x60 = .idx 0 ∧
      regAt 0xBC = .idx 23 ∧ regAt 0xC0 = .reserved := by decide

/-! ## Witnesses: for every statement with hypotheses, states and operands that meet them -/

theorem witness_ResetSetsEveryRegisterToZero :
    ∃ (s : State) (rest : List Event), s.statusBusy = true ∧ s.agenda = .reset :: rest :=
  ⟨busy 2 [.reset, .completion] ones16, [.completion], by decide⟩

theorem witness_ResetStateReadsZeroEverywhere :
    (0x00 : BitVec 8).toNat % 4 = 0 ∧ (0xFC : BitVec 8).toNat % 4 = 0 := by decide

theorem witness_StepRunsDecodedPend :
    (∃ s : State, s.statusBusy = true ∧ s.agenda = []) ∧
    (∃ (s : State) (rest : List Event), s.statusBusy = true ∧ s.agenda = .completion :: rest) ∧
    (∃ s : State, s.statusBusy = false ∧ s.agenda = []) ∧
    ∃ (s : State) (rest : List Event), s.statusBusy = false ∧ s.agenda = .completion :: rest :=
  ⟨⟨busy 1 [] State.reset, by decide⟩, ⟨busy 1 [.completion] State.reset, [], by decide⟩, ⟨State.reset, by decide⟩,
    ⟨at1 .completion State.reset, [], by decide⟩⟩

theorem witness_ExactlyFiveWordsAreCommands : ∃ v w : Word, decode v = .illegal w := ⟨6, 6, by decide⟩

theorem witness_DecodeOfEncodeIsIdentity :
    WellFormed .validate ∧ WellFormed .encode ∧ WellFormed .decode ∧ WellFormed .hash ∧ WellFormed .clear ∧
      WellFormed (.illegal 0xFFFFFFFF) := by decide

theorem witness_CommandWriteIssues :
    (∃ (s : State) (v : Word) (rest : List Event), s.agenda = wr 0x04 v :: rest ∧ s.statusBusy = false) ∧
    ∃ (s : State) (v : Word) (rest : List Event), s.agenda = wr 0x04 v :: rest ∧ s.statusBusy = true :=
  ⟨⟨at1 (wr 0x04 0) State.reset, 0, [], by decide⟩, ⟨busy 1 [wr 0x04 5] State.reset, 5, [], by decide⟩⟩

theorem witness_OperandsFrozenWhileBusy : ∃ s t : State, s ≠ t ∧ BusySteps s t :=
  ⟨busy 2 [wr 0x14 5] State.reset, _, by decide, .tail (.refl _ rfl) rfl rfl⟩

theorem witness_EveryCommandCompletes : ∃ s : State, s.statusBusy = true ∧ s.agenda.length = 2 :=
  ⟨busy 2 [wr 0x14 5, .completion] State.reset, by decide⟩

theorem witness_BothOrdersOfCompletionAndWrite :
    ∃ s u : State, s.statusBusy = true ∧ s.agenda = [] ∧ exec (decode s.pend) s = .next u ∧
      ∀ off ∈ [(0x04 : BitVec 8), 0x14, 0x18, 0x20, 0x3C, 0x60, 0xBC],
        (off.toNat = 0x04 ∨ off.toNat = 0x14 ∨ off.toNat = 0x18 ∨ (0x20 ≤ off.toNat ∧ off.toNat ≤ 0x3C) ∨
          (0x60 ≤ off.toNat ∧ off.toNat ≤ 0xBC)) ∧ off.toNat % 4 = 0 :=
  ⟨busy 1 [] State.reset, _, rfl, rfl, rfl, by decide⟩

theorem witness_StepKeepsInvariant : ∃ s t : State, s.statusBusy = true ∧ Inv s ∧ step s = .next t ∧ t.errCode = 7 :=
  ⟨busy 4 [] (idle 33 [] 0 []), _, by decide, by decide, rfl, by decide⟩

/-- Every clause: BUSY rises and falls, DONE rises and falls (an issue, a W1C, a reset), ERR rises and falls (an issue, a
completion, a reset), OVR rises and falls (a W1C, a reset). -/
theorem witness_FlagsChangeOnlyAsListed :
    (∃ s t : State, step s = .next t ∧ s.statusBusy = false ∧ t.statusBusy = true ∧ s.statusDone = true ∧
      t.statusDone = false ∧ s.statusErr = true ∧ t.statusErr = false) ∧
    (∃ s t : State, step s = .next t ∧ s.statusBusy = true ∧ t.statusBusy = false ∧ s.statusDone = false ∧
      t.statusDone = true ∧ s.statusErr = false ∧ t.statusErr = true) ∧
    (∃ s t : State, step s = .next t ∧ s.statusBusy = true ∧ t.statusBusy = false ∧ s.statusErr = true ∧
      t.statusErr = false) ∧
    (∃ s t : State, step s = .next t ∧ s.statusBusy = true ∧ t.statusBusy = false ∧ s.statusDone = true ∧
      t.statusDone = false ∧ s.statusErr = true ∧ t.statusErr = false ∧ s.statusOvr = true ∧ t.statusOvr = false) ∧
    (∃ s t : State, step s = .next t ∧ s.statusOvr = false ∧ t.statusOvr = true) ∧
    ∃ s t : State, step s = .next t ∧ s.statusDone = true ∧ t.statusDone = false ∧ s.statusOvr = true ∧
      t.statusOvr = false :=
  ⟨⟨at1 (wr 0x04 1) { State.reset with statusDone := true, errCode := 6 }, _, rfl, by decide⟩,
    ⟨busy 1 [] State.reset, _, rfl, by decide⟩,
    ⟨{ busy 5 [.completion] State.reset with errCode := 6 }, _, rfl, by decide⟩,
    ⟨{ busy 5 [.reset] State.reset with errCode := 6, statusDone := true, statusOvr := true }, _, rfl, by decide⟩,
    ⟨busy 5 [wr 0x04 1] State.reset, _, rfl, by decide⟩,
    ⟨at1 (wr 0x08 0xA) { State.reset with statusDone := true, statusOvr := true }, _, rfl, by decide⟩⟩

theorem witness_ResultRegistersChangeOnlyAsListed :
    (∃ s t : State, step s = .next t ∧ (∀ rest, s.agenda ≠ .reset :: rest) ∧ t.csum ≠ s.csum ∧ t.digest ≠ s.digest) ∧
    (∃ s t : State, step s = .next t ∧ (∀ rest, s.agenda ≠ .reset :: rest) ∧ t.errCode ≠ s.errCode ∧
      t.errInfo ≠ s.errInfo) ∧
    ∃ s t : State, step s = .next t ∧ (∀ rest, s.agenda ≠ .reset :: rest) ∧ t.pend ≠ s.pend :=
  ⟨⟨busy 5 [] { State.reset with csum := 3, digest := entOf [1] }, _, rfl, (fun _ h => nomatch h), by decide⟩,
    ⟨busy 7 [] State.reset, _, rfl, (fun _ h => nomatch h), by decide⟩,
    ⟨at1 (wr 0x04 1) State.reset, _, rfl, (fun _ h => nomatch h), by decide⟩⟩

theorem witness_IrqIsEnabledDone :
    (∃ s t : State, completesNow s = true ∧ step s = .next t ∧ s.irq = false ∧ t.irq = true) ∧
    (∃ (s t : State) (v : Word) (rest : List Event), s.agenda = wr 0x00 v :: rest ∧ step s = .next t ∧ s.irq = false ∧
      t.irq = true) ∧
    (∃ (s t : State) (v : Word) (rest : List Event), s.agenda = wr 0x08 v :: rest ∧ step s = .next t ∧ s.irq = true ∧
      t.irq = false) ∧
    ∃ (s t : State) (v : Word) (rest : List Event), s.agenda = wr 0x04 v :: rest ∧ s.statusBusy = false ∧
      step s = .next t ∧ s.irq = true :=
  ⟨⟨busy 1 [] { State.reset with ctrlIe := true }, _, by decide, rfl, by decide⟩,
    ⟨at1 (wr 0x00 1) { State.reset with statusDone := true }, _, 1, [], rfl, rfl, by decide⟩,
    ⟨at1 (wr 0x08 2) { State.reset with statusDone := true, ctrlIe := true }, _, 2, [], rfl, rfl, by decide⟩,
    ⟨at1 (wr 0x04 1) { State.reset with statusDone := true, ctrlIe := true }, _, 1, [], rfl, rfl, rfl, by decide⟩⟩

theorem witness_AddressDecodingSelectsWindow :
    (∃ addr : Nat, Config.base ≤ addr ∧ addr < Config.base + 256 ∧ addr = Config.base + 255) ∧
    (∃ addr : Nat, addr < Config.base ∨ Config.base + 256 ≤ addr) ∧
    ∃ (s : State) (r : Request) (addr : Nat) (rest : List Event), s.agenda = .bus r :: rest ∧ r.addr = .elsewhere addr :=
  ⟨⟨Config.base + 255, by omega, by omega, rfl⟩, ⟨Config.base + 256, .inr (by omega)⟩,
    ⟨at1 (.bus { write := true, addr := .elsewhere 7, size := .word, wdata := 1 }) State.reset, _, 7, [], rfl, rfl⟩⟩

theorem witness_IllegalAccessChangesNothing :
    (∃ (s : State) (r : Request) (off : BitVec 8) (rest : List Event), s.agenda = .bus r :: rest ∧ r.addr = .window off ∧
      r.size ≠ .word) ∧
    ∃ (s : State) (r : Request) (off : BitVec 8) (rest : List Event), s.agenda = .bus r :: rest ∧ r.addr = .window off ∧
      r.size = .word ∧ off.toNat % 4 ≠ 0 :=
  ⟨⟨at1 (.bus { write := true, addr := .window 0x04, size := .halfword, wdata := 1 }) State.reset, _, 0x04, [], rfl, rfl,
      by decide⟩,
    ⟨busy 1 [.bus { write := false, addr := .window 0x15, size := .word, wdata := 0 }] State.reset, _, 0x15, [], rfl, rfl,
      by decide⟩⟩

theorem witness_LegalReadAnswersRegister :
    (∀ off ∈ [(0x00 : BitVec 8), 0x04, 0x08, 0x0C, 0x10, 0x14, 0x18, 0x1C, 0x20, 0x3C, 0x40, 0x5C, 0x60, 0xBC, 0xC0, 0xFC],
      (at1 (rd off) State.reset).agenda = [rd off] ∧ off.toNat % 4 = 0 ∧ State.reset.statusBusy = false) ∧
    ∀ off ∈ [(0x00 : BitVec 8), 0x10, 0xC0],
      (busy 1 [rd off] State.reset).agenda = [rd off] ∧ off.toNat % 4 = 0 ∧ (off.toNat < 0x14 ∨ 0xC0 ≤ off.toNat) := by
  decide

theorem witness_BusyReadIsUnspecified :
    (∀ off ∈ [(0x14 : BitVec 8), 0xBC], (busy 1 [rd off] State.reset).agenda = [rd off] ∧ off.toNat % 4 = 0 ∧
      (busy 1 [rd off] State.reset).statusBusy = true ∧ 0x14 ≤ off.toNat ∧ off.toNat < 0xC0) ∧
    ∀ off ∈ [(0x0C : BitVec 8), 0x10], (busy 1 [rd off] State.reset).agenda = [rd off] ∧ off.toNat % 4 = 0 ∧
      (busy 1 [rd off] State.reset).statusBusy = true ∧ BusyResultsClear (busy 1 [rd off] State.reset) ∧
      (off.toNat = 0x0C ∨ off.toNat = 0x10) := by
  decide

theorem witness_IdleWriteStoresRegister :
    ∀ off ∈ [(0x14 : BitVec 8), 0x18, 0x20, 0x3C, 0x60, 0xBC],
      (at1 (wr off 9) State.reset).agenda = [wr off 9] ∧ (at1 (wr off 9) State.reset).statusBusy = false := by decide

theorem witness_IdleWriteStoresRegister_offsets :
    (0x20 : BitVec 8).toNat = 0x20 + 4 * (0 : Fin 8).val ∧ (0x3C : BitVec 8).toNat = 0x20 + 4 * (7 : Fin 8).val ∧
      (0x60 : BitVec 8).toNat = 0x60 + 4 * (0 : Fin 24).val ∧ (0xBC : BitVec 8).toNat = 0x60 + 4 * (23 : Fin 24).val := by
  decide

theorem witness_BusyRuleDropsOperandWrites :
    ∀ off ∈ [(0x04 : BitVec 8), 0x14, 0x18, 0x20, 0x3C, 0x60, 0xBC, 0x00, 0x08, 0x0C, 0x10, 0x1C, 0x40, 0x5C, 0xC0, 0xFC],
      (busy 1 [wr off 9] State.reset).agenda = [wr off 9] ∧ off.toNat % 4 = 0 ∧
        (busy 1 [wr off 9] State.reset).statusBusy = true := by decide

theorem witness_ReadOnlyAndReservedWritesIgnored :
    (∀ off ∈ [(0x0C : BitVec 8), 0x10, 0x1C, 0x40, 0x5C, 0xC0, 0xFC],
      (at1 (wr off 9) State.reset).agenda = [wr off 9] ∧ off.toNat % 4 = 0) ∧
    ∀ off ∈ [(0xC0 : BitVec 8), 0xFC], (busy 1 [rd off] State.reset).agenda = [rd off] ∧ off.toNat % 4 = 0 ∧
      0xC0 ≤ off.toNat := by decide

theorem witness_StatusWriteClearsNamedBits :
    ∀ v ∈ [(0x0 : Word), 0x2, 0x8, 0xA, 0xFFFFFFFF],
      (at1 (wr 0x08 v) State.reset).agenda = [wr 0x08 v] ∧ (busy 1 [wr 0x08 v] State.reset).agenda = [wr 0x08 v] :=
  fun _ _ => ⟨rfl, rfl⟩

theorem witness_CtrlHoldsInterruptEnable :
    (at1 (wr 0x00 3) State.reset).agenda = [wr 0x00 3] ∧ (busy 1 [rd 0x00] State.reset).agenda = [rd 0x00] := by decide

theorem witness_BusyControlWritesAccepted :
    ∀ off ∈ [(0x00 : BitVec 8), 0x08], (busy 1 [wr off 0xA] State.reset).statusBusy = true ∧
      BusyResultsClear (busy 1 [wr off 0xA] State.reset) ∧ (busy 1 [wr off 0xA] State.reset).agenda = [wr off 0xA] := by
  decide

theorem witness_WriteReadsBackAtOnce :
    ∀ off ∈ [(0x14 : BitVec 8), 0x18, 0x20, 0x3C, 0x60, 0xBC, 0x00, 0x08], ∃ t,
      State.reset.statusBusy = false ∧ runSteps 2 { State.reset with agenda := [wr off 9, rd off] } = .next t := by
  intro off h
  fin_cases h <;> exact ⟨_, rfl, rfl⟩

theorem witness_WriteReadsBackAtOnce_command :
    ∃ t, runSteps 2 { State.reset with agenda := [wr 0x04 9, rd 0x04] } = .next t := ⟨_, rfl⟩

theorem witness_ByteStringsPackBigEndian :
    (List.replicate 0 (0xAB : Byte)).length ≤ 32 ∧ (List.replicate 32 (0xAB : Byte)).length ≤ 32 := by decide

theorem witness_GroupsAreStreamSlices :
    ((List.replicate 16 (0xAB : Byte)).length ∈ [16, 20, 24, 28, 32] ∧ 11 < 3 * (List.replicate 16 (0xAB : Byte)).length / 4) ∧
    (List.replicate 32 (0xAB : Byte)).length ∈ [16, 20, 24, 28, 32] ∧ 23 < 3 * (List.replicate 32 (0xAB : Byte)).length / 4 := by
  decide +kernel

theorem witness_ReassemblyFollowsBitStream :
    (List.replicate 12 (2047 : Word)).length ∈ [12, 15, 18, 21, 24] ∧
      (∀ i ∈ List.replicate 12 (2047 : Word), i.toNat ≤ 2047) ∧
      e17Indices.length ∈ [12, 15, 18, 21, 24] ∧ ∀ i ∈ e17Indices, i.toNat ≤ 2047 :=
  ⟨by decide, fun i hi => by rw [List.eq_of_mem_replicate hi]; decide, by decide, by simp [e17Indices]⟩

theorem witness_PaddingFollowsTheStandard :
    (List.replicate 55 (1 : Byte)).length ≤ 55 ∧ (List.replicate 32 (1 : Byte)).length ≤ 32 := by decide

theorem witness_ScheduleFollowsTheRecurrence : (List.replicate 16 (1 : Word)).length = 16 := by decide

theorem witness_ShortMessageIsOneBlock :
    ([] : List Byte).length ≤ 55 ∧ (List.replicate 55 (1 : Byte)).length ≤ 55 := by decide

theorem witness_ValidateChecksLengthOnly :
    ((idle 16 [] 0 []).entLen.toNat ∈ [16, 20, 24, 28, 32] ∧ (idle 32 [] 0 []).entLen.toNat ∈ [16, 20, 24, 28, 32]) ∧
    (idle 15 [] 0 []).entLen.toNat ∉ [16, 20, 24, 28, 32] ∧ (idle 33 [] 0 []).entLen.toNat ∉ [16, 20, 24, 28, 32] := by
  decide

theorem witness_ValidateIsIdempotent :
    ∃ s t : State, s.statusBusy = false ∧ runSteps 2 { s with agenda := [wr 0x04 1, .completion] } = .next t :=
  ⟨ones16, _, rfl, rfl⟩

theorem witness_EncodeWritesIndicesCountAndChecksum :
    (∀ n ∈ [(16 : Word), 32], ∃ (s : State) (L CS n' V : Nat) (E : List Byte) (cs : Byte),
      L = s.entLen.toNat ∧ CS = L / 4 ∧ n' = 3 * L / 4 ∧
      E = (List.finRange 32).filterMap (fun i => if i.val < L then some (entByte s.ent i) else none) ∧
      cs = (sha256 E)[0] >>> (8 - CS) ∧ V = intBE E * 2 ^ CS + cs.toNat ∧ L ∈ [16, 20, 24, 28, 32] ∧ s.entLen = n) ∧
    (idle 0 [] 0 []).entLen.toNat ∉ [16, 20, 24, 28, 32] := by
  constructor
  · intro n h
    exact ⟨idle n e17Words 0 [], _, _, _, _, _, _, rfl, rfl, rfl, rfl, rfl, rfl, by fin_cases h <;> decide, rfl⟩
  · decide

theorem witness_EncodeGroupCountByTable : ∃ s t : State, exec .encode s = .next t ∧ t.errCode = 0 ∧ s.entLen = 16 :=
  ⟨ones16, _, rfl, by decide, by decide⟩

theorem witness_EncodeIsDeterministic :
    ∃ s₁ s₂ t₁ t₂ : State, s₁ ≠ s₂ ∧ s₁.entLen = s₂.entLen ∧
      (∀ i : Fin 32, i.val < s₁.entLen.toNat → entByte s₁.ent i = entByte s₂.ent i) ∧
      exec .encode s₁ = .next t₁ ∧ exec .encode s₂ = .next t₂ ∧ t₁.errCode = 0 :=
  ⟨idle 16 e17Words 3 [], idle 16 (e17Words.take 4) 4 [7], _, _, by decide, by decide, by decide +kernel, rfl, rfl,
    by decide⟩

theorem witness_DecodeRejectsWordCount :
    (idle 0 [] 13 []).wcount.toNat ∉ [12, 15, 18, 21, 24] ∧
      (idle 0 [] 0x8000000C []).wcount.toNat ∉ [12, 15, 18, 21, 24] := by decide

theorem witness_DecodeReportsLowestUnknownWord :
    d11.wcount.toNat ∈ [12, 15, 18, 21, 24] ∧ (5 : Fin 24).val < d11.wcount.toNat ∧ 2047 < (d11.idx[(5 : Fin 24)]).toNat ∧
      ∀ k : Fin 24, k.val < (5 : Fin 24).val → (d11.idx[k]).toNat ≤ 2047 := by decide

/-- The hypotheses of the statement for a state, with the checksums left as they come out. -/
theorem decode_hypotheses (s : State) (hn : s.wcount.toNat ∈ [12, 15, 18, 21, 24])
    (hi : ∀ j : Fin 24, j.val < s.wcount.toNat → (s.idx[j]).toNat ≤ 2047) :
    ∃ (n CS L V : Nat) (E : List Byte) (found expected : Byte), n = s.wcount.toNat ∧ n ∈ [12, 15, 18, 21, 24] ∧
      (∀ j : Fin 24, j.val < n → (s.idx[j]).toNat ≤ 2047) ∧ CS = n / 3 ∧ L = 4 * n / 3 ∧
      V = ((List.finRange 24).map fun j =>
        if j.val < n then (s.idx[j]).toNat * 2 ^ (11 * (n - 1 - j.val)) else 0).sum ∧
      E = (List.range L).map (fun q => BitVec.ofNat 8 ((V >>> CS) >>> (8 * (L - 1 - q)))) ∧
      found = BitVec.ofNat 8 (V &&& (2 ^ CS - 1)) ∧ expected = (sha256 E)[0] >>> (8 - CS) :=
  ⟨_, _, _, _, _, _, _, rfl, hn, hi, rfl, rfl, rfl, rfl, rfl, rfl⟩

/-- D1: the checksums of the statement agree. -/
theorem witness_DecodeVerifiesChecksum_match :
    d1.wcount.toNat ∈ [12, 15, 18, 21, 24] ∧ (∀ j : Fin 24, j.val < d1.wcount.toNat → (d1.idx[j]).toNat ≤ 2047) ∧
    ∃ V : Nat, V = ((List.finRange 24).map fun j =>
        if j.val < 12 then (d1.idx[j]).toNat * 2 ^ (11 * (12 - 1 - j.val)) else 0).sum ∧
      (sha256 ((List.range 16).map (fun q => BitVec.ofNat 8 ((V >>> 4) >>> (8 * (16 - 1 - q))))))[0] >>> 4 =
        BitVec.ofNat 8 (V &&& (2 ^ 4 - 1)) :=
  ⟨by decide, by decide, _, rfl, by decide +kernel⟩

/-- D5: the checksums of the statement differ. -/
theorem witness_DecodeVerifiesChecksum_mismatch :
    d5.wcount.toNat ∈ [12, 15, 18, 21, 24] ∧ (∀ j : Fin 24, j.val < d5.wcount.toNat → (d5.idx[j]).toNat ≤ 2047) ∧
    ∃ V : Nat, V = ((List.finRange 24).map fun j =>
        if j.val < 12 then (d5.idx[j]).toNat * 2 ^ (11 * (12 - 1 - j.val)) else 0).sum ∧
      (sha256 ((List.range 16).map (fun q => BitVec.ofNat 8 ((V >>> 4) >>> (8 * (16 - 1 - q))))))[0] >>> 4 ≠
        BitVec.ofNat 8 (V &&& (2 ^ 4 - 1)) :=
  ⟨by decide, by decide, _, rfl, by decide +kernel⟩

theorem witness_DecodeInvertsEncode :
    (ones16.statusBusy = false ∧ ones16.entLen.toNat ∈ [16, 20, 24, 28, 32]) ∧
    (idle 32 e17Words 0 []).statusBusy = false ∧ (idle 32 e17Words 0 []).entLen.toNat ∈ [16, 20, 24, 28, 32] := by decide

/-- An outcome that has a next state is that state. -/
theorem eq_next_of_after {o : Host.Outcome State Fault Refusal} (h : after o (fun _ => true) = some true) :
    o = .next (nextOf o) := by
  cases o with
  | next t => rfl
  | fault r => exact r.casesOn
  | refused r => cases h

/-- D1 is a sequence DECODE accepts. -/
theorem d1_accepted : ∃ u, exec .decode d1 = .next u ∧ u.errCode = 0 :=
  ⟨nextOf (exec .decode d1), eq_next_of_after (by decide +kernel), by decide +kernel⟩

theorem witness_DecodeAcceptsExactlyTheImage :
    ∃ (s : State) (E : List Byte) (u : State), s.wcount.toNat ∈ [12, 15, 18, 21, 24] ∧
      (∀ j : Fin 24, j.val < s.wcount.toNat → (s.idx[j]).toNat ≤ 2047) ∧
      E = candidateEntropy (joinGroups (indexList s.idx s.wcount.toNat)) s.wcount.toNat ∧
      exec .decode s = .next u ∧ u.errCode = 0 ∧ u.ent = u.ent ∧ u.entLen = u.entLen := by
  obtain ⟨u, hu, he⟩ := d1_accepted
  exact ⟨d1, _, u, by decide, by decide, rfl, hu, he, rfl, rfl⟩

/-- D10 from D1, and D5's last index from D1's: both clauses, at the last and the first position. -/
theorem witness_ChangedIndexRejected :
    ∃ t, exec .decode d1 = .next t ∧ t.errCode = 0 ∧ (0 : Fin 24).val < d1.wcount.toNat ∧ 2047 < (0x800 : Word).toNat ∧
      (11 : Fin 24).val < d1.wcount.toNat ∧ (0 : Word).toNat ≤ 2047 ∧ (0 : Word) ≠ d1.idx[(11 : Fin 24)] ∧
      (11 : Fin 24).val + 1 = d1.wcount.toNat ∧
      (0 : Word) >>> (d1.wcount.toNat / 3) = d1.idx[(11 : Fin 24)] >>> (d1.wcount.toNat / 3) := by
  obtain ⟨t, ht, he⟩ := d1_accepted
  exact ⟨t, ht, he, by decide⟩

theorem witness_HashWritesDigestWords :
    ∃ (s : State) (D : Vector Byte 32), D = sha256 ((List.finRange 32).filterMap
        fun i => if i.val < s.entLen.toNat then some (entByte s.ent i) else none) ∧ s.entLen.toNat = 32 ∧
      (idle 0 [] 0 []).entLen.toNat ≤ 32 ∧ 32 < (idle 33 [] 0 []).entLen.toNat :=
  ⟨idle 32 e17Words 0 [], _, rfl, by decide⟩

theorem witness_ClearScrubsEveryBuffer :
    ∀ off ∈ [(0x04 : BitVec 8), 0x0C, 0xFC], off.toNat % 4 = 0 ∧ off.toNat ≠ 0x00 ∧ off.toNat ≠ 0x08 := by decide

theorem witness_IllegalWordReportsItself :
    ∀ w ∈ [(0 : Word), 6, 15, 0x12, 0xFFFFFFFF], ∃ (s : State) (rest : List Event), s.pend = w ∧ s.statusBusy = true ∧
      s.agenda = .completion :: rest ∧
      (s.pend.extractLsb' 4 28 ≠ 0 ∨ (s.pend.extractLsb' 0 4).toNat = 0 ∨ 6 ≤ (s.pend.extractLsb' 0 4).toNat) := by
  intro w h
  exact ⟨busy w [.completion] State.reset, [], rfl, rfl, rfl, by fin_cases h <;> decide⟩

theorem witness_ErrorReportsCauseAndInfo :
    ∃ (i : Instr) (s t : State), exec i s = .next t ∧ t.errCode = 3 ∧ t.errInfo = 5 := ⟨.decode, d11, _, rfl, by decide⟩

theorem witness_FailedCommandChangesNothingElse :
    ∃ (i : Instr) (s t : State), exec i s = .next t ∧ t.errCode ≠ 0 := ⟨.decode, idle 0 [] 13 [], _, rfl, by decide⟩

theorem witness_CommandsWriteOnlyTheirRow :
    (∃ s t : State, exec .validate s = .next t) ∧ (∃ s t : State, exec .encode s = .next t) ∧
    (∃ s t : State, exec .decode s = .next t) ∧ (∃ s t : State, exec .hash s = .next t) ∧
    (∃ s t : State, exec .clear s = .next t) ∧ ∃ (w : Word) (s t : State), exec (.illegal w) s = .next t :=
  ⟨⟨ones16, _, rfl⟩, ⟨ones16, _, rfl⟩, ⟨d1, by obtain ⟨u, h, -⟩ := d1_accepted; exact ⟨u, h⟩⟩, ⟨ones16, _, rfl⟩,
    ⟨ones16, _, rfl⟩, ⟨6, ones16, _, rfl⟩⟩

theorem witness_ResultsDependOnOperandsOnly :
    ∀ i ∈ [Instr.validate, .encode, .hash, .clear, .illegal 6], ∃ s₁ s₂ t₁ t₂ : State, s₁ ≠ s₂ ∧ OperandsAgree i s₁ s₂ ∧
      exec i s₁ = .next t₁ ∧ exec i s₂ = .next t₂ := by
  intro i h
  refine ⟨idle 16 e17Words 0 [1], idle 16 (e17Words.take 4) 1 [2], ?_⟩
  fin_cases h
  · exact ⟨_, _, by decide, rfl, rfl, rfl⟩
  · exact ⟨_, _, by decide, ⟨rfl, by decide +kernel⟩, rfl, rfl⟩
  · exact ⟨_, _, by decide, ⟨rfl, by decide +kernel⟩, rfl, rfl⟩
  · exact ⟨_, _, by decide, trivial, rfl, rfl⟩
  · exact ⟨_, _, by decide, rfl, rfl, rfl⟩

theorem witness_ResultsDependOnOperandsOnly_decode :
    ∃ s₁ s₂ t₁ t₂ : State, s₁ ≠ s₂ ∧ OperandsAgree .decode s₁ s₂ ∧ exec .decode s₁ = .next t₁ ∧ exec .decode s₂ = .next t₂ :=
  ⟨d11, { d11 with idx := d11.idx.set 12 7 }, _, _, by decide, ⟨rfl, by decide⟩, rfl, rfl⟩

theorem witness_LoadsFillOperands :
    State.reset.statusBusy = false ∧ (List.replicate 32 (1 : Byte)).length ≤ 32 ∧ e17Indices.length ≤ 24 := by decide

/-- A wordlist that meets R270: "abandon" at 0, "about" at 3, and words of the letter w alone elsewhere. -/
def sampleWord (i : Fin 2048) : String :=
  if i.val = 0 then "abandon" else if i.val = 3 then "about" else String.ofList (List.replicate (i.val + 10) 'w')

theorem sampleWord_length (i : Fin 2048) : (sampleWord i).toList.length =
    if i.val = 0 then 7 else if i.val = 3 then 5 else i.val + 10 := by
  unfold sampleWord
  split
  · rfl
  · split
    · rfl
    · rw [String.toList_ofList, List.length_replicate]

/-- The ASCII reading: A to Z are upper case, and space, tab, newline and carriage return are whitespace. -/
def asciiReading : CharReading where
  upper c := decide (0x41 ≤ c.toNat ∧ c.toNat ≤ 0x5A)
  white c := decide (c.toNat = 0x20 ∨ c.toNat = 0x09 ∨ c.toNat = 0x0A ∨ c.toNat = 0x0D)
  upper_printable := by intro c _ _; simp
  white_printable := by intro c h _; simp; omega
  white_tab := by decide
  white_newline := by decide

theorem sampleWord_lowercase (i : Fin 2048) : asciiReading.lowercaseWord (sampleWord i) := by
  have ha : "abandon".toList = ['a', 'b', 'a', 'n', 'd', 'o', 'n'] := by rfl
  have hb : "about".toList = ['a', 'b', 'o', 'u', 't'] := by rfl
  unfold CharReading.lowercaseWord sampleWord
  split
  · rw [ha]; simp [asciiReading]
  · split
    · rw [hb]; simp [asciiReading]
    · intro c hc
      rw [String.toList_ofList] at hc
      rw [List.eq_of_mem_replicate hc]
      decide

def sampleWordlist : Wordlist where
  reading := asciiReading
  word := sampleWord
  injective := by
    intro i j h
    have hl := congrArg (fun w => w.toList.length) h
    simp only [sampleWord_length] at hl
    apply Fin.ext
    split_ifs at hl <;> omega
  lowercase := sampleWord_lowercase
  word_zero := rfl
  word_three := rfl

/-- R275 leaves several spaces and upper case to the host: a host that folds case and drops empty parts is a parser. -/
def foldingParser : TextParser asciiReading where
  parse text := ((text.toList.splitOn ' ').filter (· ≠ [])).map fun l => String.ofList (l.map Char.toLower)
  canonical := by
    intro words hne hw
    have hsp : ∀ l ∈ words.map String.toList, ' ' ∉ l := by
      intro l hl hs
      obtain ⟨w, hm, rfl⟩ := List.mem_map.1 hl
      exact absurd ((hw w hm).2 _ hs).2 (by decide)
    rw [mnemonicText, String.toList_intercalate, show " ".toList = [' '] by rfl,
      List.splitOn_intercalate ' ' hsp (by simpa using hne), List.filter_eq_self.2, List.map_map]
    · refine (List.map_congr_left fun w hm => ?_).trans (List.map_id _)
      have hfold : w.toList.map Char.toLower = w.toList := by
        refine (List.map_congr_left fun c hc => ?_).trans (List.map_id _)
        have hu := ((hw w hm).2 c hc).1
        simp only [asciiReading, decide_eq_false_iff_not] at hu
        exact dif_neg fun h => hu ⟨h.1, h.2⟩
      simp only [Function.comp, hfold, String.ofList_toList, id]
    · intro l hl
      obtain ⟨w, hm, rfl⟩ := List.mem_map.1 hl
      simpa using (hw w hm).1

/-- Two spaces and capitals, which R275 does not fix: this host takes them for the two words. -/
theorem test_folding_parser : foldingParser.parse " ABOUT  about" = ["about", "about"] := by decide +kernel

/-- Both clauses: 13 words, and 12 words of which the one at position 1 is "zoo", no word of the sample list. -/
theorem witness_HostDecodeRejectsInOrder :
    (List.replicate 13 "abandon").length ∉ [12, 15, 18, 21, 24] ∧
    ∃ (W : Wordlist) (words : List String), words.length ∈ [12, 15, 18, 21, 24] ∧ 1 < words.length ∧
      (∀ i, W.word i ≠ words.getD 1 "") ∧ ∀ q, q < 1 → ∃ i, W.word i = words.getD q "" := by
  refine ⟨by decide, sampleWordlist, "abandon" :: "zoo" :: List.replicate 10 "about", by decide, by decide, ?_, ?_⟩
  · intro i h
    have hl := congrArg (fun w => w.toList.length) h
    have hz : (("abandon" :: "zoo" :: List.replicate 10 "about").getD 1 "").toList.length = 3 := by rfl
    simp only [hz] at hl
    rw [show sampleWordlist.word i = sampleWord i by rfl, sampleWord_length] at hl
    split_ifs at hl <;> omega
  · intro q hq
    refine ⟨0, ?_⟩
    rw [show q = 0 by omega]
    rfl

theorem witness_HostEncodeRejectsLength :
    State.reset.statusBusy = false ∧
      (∀ e ∈ [List.replicate 0 (1 : Byte), List.replicate 15 1, List.replicate 33 1],
        e.length ∉ [16, 20, 24, 28, 32] ∧ e.length < 2 ^ 32) ∧ Nonempty Wordlist :=
  ⟨rfl, by decide, ⟨sampleWordlist⟩⟩

theorem witness_WordLevelRoundTrip :
    State.reset.statusBusy = false ∧ (List.replicate 16 (1 : Byte)).length ∈ [16, 20, 24, 28, 32] ∧
      (List.replicate 32 (1 : Byte)).length ∈ [16, 20, 24, 28, 32] ∧ Nonempty Wordlist :=
  ⟨rfl, by decide, by decide, ⟨sampleWordlist⟩⟩

end Sys2Proof.Tests
end

section
/-! ## The state: flags, result registers, irq, STATUS and CTRL (10_state.md)

What a step can do is said once, by `StepEvent`; the statements about which events change a register are case splits
over it. -/

namespace Sys2Proof.Machine

/-! ### Legal writes and reads of one register -/

/-- R75: an idle block drops no write. -/
theorem writeRegister_of_idle {s : State} (r : Reg) (v : Word) (h : s.statusBusy = false) :
    writeRegister r v s = storeRegister r v s := by
  simp [writeRegister, h]

/-- R344, R346: a write the busy rule does not name has its effect, busy or not. -/
theorem writeRegister_of_not_dropped {r : Reg} (v : Word) (s : State) (h : droppedWhileBusy r = false) :
    writeRegister r v s = storeRegister r v s := by
  simp [writeRegister, h]

/-- R44, R45: the registers that ignore writes. -/
def ignoresWrites : Reg → Bool
  | .errCode | .errInfo | .csum | .digest _ | .reserved => true
  | .ctrl | .cmd | .status | .entLen | .wcount | .ent _ | .idx _ => false

/-- R44, R45: the offsets of the registers that ignore writes. -/
theorem ignoresWrites_regAt : ∀ off : BitVec 8, off.toNat % 4 = 0 →
    (ignoresWrites (regAt off) = true ↔
      (off.toNat = 0x0C ∨ off.toNat = 0x10 ∨ off.toNat = 0x1C ∨ (0x40 ≤ off.toNat ∧ off.toNat ≤ 0x5C) ∨
        0xC0 ≤ off.toNat)) := by decide +kernel

/-- Such a write changes nothing, and does not set OVR. -/
theorem writeRegister_of_ignoresWrites {r : Reg} (v : Word) (s : State) (h : ignoresWrites r = true) :
    writeRegister r v s = s := by
  cases r with
  | errCode | errInfo | csum | digest | reserved => exact writeRegister_of_not_dropped v s rfl
  | ctrl | cmd | status | entLen | wcount | ent | idx => cases h

/-- R74: a read outside BUSY_UNSPECIFIED answers the register and draws no free value. -/
theorem step_rd_of_specified {s : State} {off : BitVec 8} {rest : List Event} (h : s.agenda = rd off :: rest)
    (ha : off.toNat % 4 = 0) (hr : busyUnspecified (regAt off) = false) :
    step s = .next (respond .okay (registerValue (regAt off) s) { s with agenda := rest }) := by
  have hv : registerValue (regAt off) { s with agenda := rest } = registerValue (regAt off) s := by
    cases regAt off <;> rfl
  simp [step_rd h ha, readValue, afterRead, hr, hv]

/-- R32: the step of a write to CTRL, busy or not. -/
theorem step_wr_ctrl {s : State} {v : Word} {rest : List Event} (h : s.agenda = wr 0x00 v :: rest) :
    step s = .next (respond .okay 0 { s with agenda := rest, ctrlIe := v.getLsbD 0 }) := by
  rw [step_wr h rfl, writeRegister_of_not_dropped _ _ rfl]; rfl

/-- R35: the step of a write to STATUS, busy or not. -/
theorem step_wr_status {s : State} {v : Word} {rest : List Event} (h : s.agenda = wr 0x08 v :: rest) :
    step s = .next (respond .okay 0 (clearStatusBits v { s with agenda := rest })) := by
  rw [step_wr h rfl, writeRegister_of_not_dropped _ _ rfl]; rfl

/-- R250: the step of an issue. -/
theorem step_wr_cmd_of_idle {s : State} {v : Word} {rest : List Event} (h : s.agenda = wr 0x04 v :: rest)
    (hb : s.statusBusy = false) : step s = .next (respond .okay 0 (issue v { s with agenda := rest })) := by
  rw [step_wr h rfl, writeRegister_of_idle (s := { s with agenda := rest }) _ _ hb]; rfl

/-- R32: CTRL as read is 1 or 0. -/
theorem ctrlWord_eq (s : State) : ctrlWord s = if s.ctrlIe then 1 else 0 := by
  unfold ctrlWord; cases s.ctrlIe <;> rfl

/-! ### The steps that are completions -/

theorem completesNow_iff {s : State} : completesNow s = true ↔
    s.statusBusy = true ∧ (s.agenda = [] ∨ ∃ rest, s.agenda = .completion :: rest) := by
  cases h : s.agenda <;> simp [completesNow, h]

/-- R252: a completion runs the decoded PEND. -/
theorem step_of_completesNow {s : State} (h : completesNow s = true) :
    ∃ rest, step s = exec (decode s.pend) { s with agenda := rest } := by
  obtain ⟨hb, ha | ⟨rest, ha⟩⟩ := completesNow_iff.1 h
  · have hs : step s = exec (decode s.pend) s := by simp [step, ha, completeIfBusy, hb, complete]
    exact ⟨s.agenda, hs⟩
  · exact ⟨rest, step_completion ha hb⟩

/-- A request for a legal write is the event `wr`. -/
theorem bus_eq_wr {r : Request} {off : BitVec 8} (ha : r.addr = .window off) (hl : legalAccess r.size off = true)
    (hw : r.write = true) : Event.bus r = wr off r.wdata := by
  obtain ⟨write, addr, size, wdata⟩ := r
  obtain ⟨hs, -⟩ := legalAccess_iff.1 hl
  cases ha; cases hs; cases hw; rfl

/-! ### The events of a step -/

/-- The events that can change the flags, CTRL, PEND or a result register, each with the state it leads to, and all
other steps, which leave these alone. -/
inductive StepEvent (s : State) : State → Prop where
  | completion {t : State} {rest : List Event} (now : completesNow s = true)
      (run : exec (decode s.pend) { s with agenda := rest } = .next t) : StepEvent s t
  | reset {rest : List Event} (head : s.agenda = .reset :: rest) : StepEvent s (applyReset { s with agenda := rest })
  | issue {v : Word} {rest : List Event} (idle : s.statusBusy = false) (head : s.agenda = wr 0x04 v :: rest) :
      StepEvent s (respond .okay 0 (issue v { s with agenda := rest }))
  | ctrlWrite {v : Word} {rest : List Event} (head : s.agenda = wr 0x00 v :: rest) :
      StepEvent s (respond .okay 0 { s with agenda := rest, ctrlIe := v.getLsbD 0 })
  | statusWrite {v : Word} {rest : List Event} (head : s.agenda = wr 0x08 v :: rest) :
      StepEvent s (respond .okay 0 (clearStatusBits v { s with agenda := rest }))
  | droppedWrite {off : BitVec 8} {v : Word} {rest : List Event} (busy : s.statusBusy = true)
      (head : s.agenda = wr off v :: rest) (dropped : droppedWhileBusy (regAt off) = true) :
      StepEvent s (respond .okay 0 (setOverrun { s with agenda := rest }))
  | other (entLen wcount : Word) (ent : Vector Word 8) (idx : Vector Word 24) (agenda : List Event)
      (response : Option Response) (draws : Nat) :
      StepEvent s { s with
        entLen := entLen, wcount := wcount, ent := ent, idx := idx, agenda := agenda, response := response,
        draws := draws }

/-- A legal write that is not dropped is an issue, a write to CTRL or STATUS, or touches operands at most. -/
theorem stepEvent_of_stored {s : State} {off : BitVec 8} {v : Word} {rest : List Event}
    (head : s.agenda = wr off v :: rest) (ha : off.toNat % 4 = 0)
    (hs : s.statusBusy = false ∨ droppedWhileBusy (regAt off) = false) :
    StepEvent s (respond .okay 0 (storeRegister (regAt off) v { s with agenda := rest })) := by
  cases hr : regAt off with
  | ctrl =>
    obtain rfl := (regAt_eq_ctrl off ha).1 hr
    exact .ctrlWrite head
  | status =>
    obtain rfl := (regAt_eq_status off ha).1 hr
    exact .statusWrite head
  | cmd =>
    obtain rfl := (regAt_eq_cmd off ha).1 hr
    exact .issue (hs.resolve_right (by decide)) head
  | errCode | errInfo | csum | digest | reserved | entLen | wcount | ent | idx => exact .other ..

/-- A bus request is a dropped or stored write, or changes nothing but the model's own fields. -/
theorem stepEvent_of_bus {s : State} {r : Request} {rest : List Event} (head : s.agenda = .bus r :: rest) :
    StepEvent s (busRequest r { s with agenda := rest }) := by
  obtain ⟨a, -, ht⟩ | ⟨off, ha, ⟨-, ht⟩ | ⟨hl, hw, ht⟩ | ⟨-, -, ht⟩⟩ := busRequest_cases r { s with agenda := rest }
  · rw [ht]; exact .other ..
  · rw [ht]; exact .other ..
  · rw [bus_eq_wr ha hl hw] at head
    obtain ⟨hb, hd, hw⟩ | ⟨hs, hw⟩ := writeRegister_cases (regAt off) r.wdata { s with agenda := rest } <;> rw [ht, hw]
    · exact .droppedWrite hb head hd
    · exact stepEvent_of_stored head (legalAccess_iff.1 hl).2 hs
  · rw [ht, afterRead]
    split <;> exact .other ..

/-- Every step is one of the events. -/
theorem stepEvent_of_step {s t : State} (h : step s = .next t) : StepEvent s t := by
  obtain ⟨hb, ha, hx⟩ | ⟨hb, rest, ha, hx⟩ | ⟨-, -, rfl⟩ | ⟨-, rest, -, rfl⟩ | ⟨r, rest, ha, rfl⟩ | ⟨rest, ha, rfl⟩ :=
    step_cases h
  · exact .completion (rest := s.agenda) (completesNow_iff.2 ⟨hb, .inl ha⟩) hx
  · exact .completion (completesNow_iff.2 ⟨hb, .inr ⟨rest, ha⟩⟩) hx
  · exact .other ..
  · exact .other ..
  · exact stepEvent_of_bus ha
  · exact .reset ha

/-! ### The flags (R48) -/

theorem statusBusy_rises {s t : State} (h : step s = .next t) (hs : s.statusBusy = false) (ht : t.statusBusy = true) :
    ∃ v rest, s.agenda = wr 0x04 v :: rest := by
  cases stepEvent_of_step h with
  | issue _ head => exact ⟨_, _, head⟩
  | completion _ run => simp [(exec_control run).1] at ht
  | reset | ctrlWrite | statusWrite | droppedWrite | other => simp_all

theorem statusBusy_falls {s t : State} (h : step s = .next t) (hs : s.statusBusy = true) (ht : t.statusBusy = false) :
    completesNow s = true ∨ ∃ rest, s.agenda = .reset :: rest := by
  cases stepEvent_of_step h with
  | completion now => exact .inl now
  | reset head => exact .inr ⟨_, head⟩
  | issue | ctrlWrite | statusWrite | droppedWrite | other => simp_all

theorem statusDone_rises {s t : State} (h : step s = .next t) (hs : s.statusDone = false) (ht : t.statusDone = true) :
    completesNow s = true := by
  cases stepEvent_of_step h with
  | completion now => exact now
  | reset | issue | ctrlWrite | statusWrite | droppedWrite | other => simp_all

theorem statusDone_falls {s t : State} (h : step s = .next t) (hs : s.statusDone = true) (ht : t.statusDone = false) :
    (s.statusBusy = false ∧ ∃ v rest, s.agenda = wr 0x04 v :: rest) ∨
    (∃ v rest, s.agenda = wr 0x08 v :: rest ∧ v.getLsbD 1 = true) ∨ ∃ rest, s.agenda = .reset :: rest := by
  cases stepEvent_of_step h with
  | issue idle head => exact .inl ⟨idle, _, _, head⟩
  | statusWrite head => exact .inr (.inl ⟨_, _, head, by simpa [hs] using ht⟩)
  | reset head => exact .inr (.inr ⟨_, head⟩)
  | completion _ run =>
    obtain ⟨-, done, -⟩ := exec_control run
    simp [done] at ht
  | ctrlWrite | droppedWrite | other => simp_all

/-- R34: ERR is 1 exactly when ERR_CODE is not 0. -/
@[simp] theorem statusErr_eq_true {s : State} : s.statusErr = true ↔ s.errCode ≠ 0 := by simp [State.statusErr]
@[simp] theorem statusErr_eq_false {s : State} : s.statusErr = false ↔ s.errCode = 0 := by simp [State.statusErr]

/-- R36, R37: the error result changes only at a completion, an issue or a reset. -/
theorem errorResult_changes {s t : State} (h : step s = .next t) (hc : t.errCode ≠ s.errCode ∨ t.errInfo ≠ s.errInfo) :
    completesNow s = true ∨ (s.statusBusy = false ∧ ∃ v rest, s.agenda = wr 0x04 v :: rest) ∨
      ∃ rest, s.agenda = .reset :: rest := by
  cases stepEvent_of_step h with
  | completion now => exact .inl now
  | issue idle head => exact .inr (.inl ⟨idle, _, _, head⟩)
  | reset head => exact .inr (.inr ⟨_, head⟩)
  | ctrlWrite | statusWrite | droppedWrite | other => simp at hc

theorem statusErr_rises {s t : State} (h : step s = .next t) (hs : s.statusErr = false) (ht : t.statusErr = true) :
    completesNow s = true ∧ t.errCode ≠ 0 := by
  refine ⟨?_, statusErr_eq_true.1 ht⟩
  cases stepEvent_of_step h with
  | completion now => exact now
  | reset | issue | ctrlWrite | statusWrite | droppedWrite | other => simp_all

theorem statusErr_falls {s t : State} (h : step s = .next t) (hs : s.statusErr = true) (ht : t.statusErr = false) :
    (s.statusBusy = false ∧ ∃ v rest, s.agenda = wr 0x04 v :: rest) ∨
    (completesNow s = true ∧ t.errCode = 0) ∨ ∃ rest, s.agenda = .reset :: rest := by
  rw [statusErr_eq_true] at hs
  rw [statusErr_eq_false] at ht
  obtain now | issued | reset := errorResult_changes h (.inl fun he => hs (he ▸ ht))
  · exact .inr (.inl ⟨now, ht⟩)
  · exact .inl issued
  · exact .inr (.inr reset)

theorem statusOvr_rises {s t : State} (h : step s = .next t) (hs : s.statusOvr = false) (ht : t.statusOvr = true) :
    s.statusBusy = true ∧ ∃ off v rest, s.agenda = wr off v :: rest ∧ droppedWhileBusy (regAt off) = true := by
  cases stepEvent_of_step h with
  | droppedWrite busy head dropped => exact ⟨busy, _, _, _, head, dropped⟩
  | completion _ run =>
    obtain ⟨-, -, ovr, -⟩ := exec_control run
    simp [ovr, hs] at ht
  | reset | issue | ctrlWrite | statusWrite | other => simp_all

theorem statusOvr_falls {s t : State} (h : step s = .next t) (hs : s.statusOvr = true) (ht : t.statusOvr = false) :
    (∃ v rest, s.agenda = wr 0x08 v :: rest ∧ v.getLsbD 3 = true) ∨ ∃ rest, s.agenda = .reset :: rest := by
  cases stepEvent_of_step h with
  | statusWrite head => exact .inl ⟨_, _, head, by simpa [hs] using ht⟩
  | reset head => exact .inr ⟨_, head⟩
  | completion _ run =>
    obtain ⟨-, -, ovr, -⟩ := exec_control run
    simp [ovr, hs] at ht
  | issue | ctrlWrite | droppedWrite | other => simp_all

/-- Settles O16: each flag's two changes, by the events of a step. -/
theorem flagsChangeOnlyAsListed : Obligations.FlagsChangeOnlyAsListed := fun _ _ h =>
  ⟨statusBusy_rises h, statusBusy_falls h, statusDone_rises h, statusDone_falls h, statusErr_rises h, statusErr_falls h,
    statusOvr_rises h, statusOvr_falls h⟩

/-! ### The result registers (R36, R37, R40, R42, R46) -/

/-- R103: what each command has written when it succeeds. -/
def commandResult (i : Instr) (s : State) : State :=
  match i with
  | .validate | .illegal _ => s
  | .encode => writeMnemonic (entropyBytes s.ent s.entLen.toNat) s
  | .decode =>
    let v := joinGroups (indexList s.idx s.wcount.toNat)
    writeEntropy (candidateEntropy v s.wcount.toNat) (foundChecksum v s.wcount.toNat) s
  | .hash => { s with digest := digestWords (sha256 (entropyBytes s.ent s.entLen.toNat)) }
  | .clear => scrubBuffers s

/-- A completion writes the result of its command and succeeds, or raises an error and writes no result. -/
theorem exec_writes_result_or_fails {i : Instr} {s t : State} (h : exec i s = .next t) :
    t = completeOk (commandResult i s) ∨ ∃ e info, t = raiseError e info s := by
  cases i with
  | validate =>
    obtain ⟨-, hn⟩ | ⟨-, hn⟩ := execValidate_cases s <;> rw [exec, hn] at h <;> cases h
    · exact .inl rfl
    · exact .inr ⟨_, _, rfl⟩
  | encode =>
    obtain ⟨-, hn⟩ | ⟨-, hn⟩ := execEncode_cases s <;> rw [exec, hn] at h <;> cases h
    · exact .inl rfl
    · exact .inr ⟨_, _, rfl⟩
  | decode =>
    obtain ⟨-, hn⟩ | ⟨-, _, -, hn⟩ | ⟨-, -, hn⟩ := execDecode_cases s <;> rw [exec, hn] at h <;> cases h
    · exact .inr ⟨_, _, rfl⟩
    · exact .inr ⟨_, _, rfl⟩
    · obtain ⟨-, hd⟩ | ⟨-, hd⟩ :=
        decodeStream_cases (joinGroups (indexList s.idx s.wcount.toNat)) s.wcount.toNat s
      · exact .inl hd
      · exact .inr ⟨_, _, hd⟩
  | hash =>
    obtain ⟨-, hn⟩ | ⟨-, hn⟩ := execHash_cases s <;> rw [exec, hn] at h <;> cases h
    · exact .inl rfl
    · exact .inr ⟨_, _, rfl⟩
  | clear => cases h; exact .inl rfl
  | illegal w => cases h; exact .inr ⟨_, _, rfl⟩

/-- R103: the commands that write CSUM, when they succeed. -/
theorem exec_csum_changes {i : Instr} {s t : State} (h : exec i s = .next t) (hc : t.csum ≠ s.csum) :
    t.errCode = 0 ∧ (i = .encode ∨ i = .decode ∨ i = .clear) := by
  obtain rfl | ⟨e, info, rfl⟩ := exec_writes_result_or_fails h
  · refine ⟨rfl, ?_⟩
    cases i with
    | encode | decode | clear => simp
    | validate | hash | illegal => exact absurd rfl hc
  · exact absurd rfl hc

/-- R103: the commands that write DIGEST, when they succeed. -/
theorem exec_digest_changes {i : Instr} {s t : State} (h : exec i s = .next t) (hd : t.digest ≠ s.digest) :
    t.errCode = 0 ∧ (i = .hash ∨ i = .clear) := by
  obtain rfl | ⟨e, info, rfl⟩ := exec_writes_result_or_fails h
  · refine ⟨rfl, ?_⟩
    cases i with
    | hash | clear => simp
    | validate | encode | decode | illegal => exact absurd rfl hd
  · exact absurd rfl hd

theorem csum_changes {s t : State} (h : step s = .next t) (hr : ∀ rest, s.agenda ≠ .reset :: rest)
    (hc : t.csum ≠ s.csum) : completesNow s = true ∧ t.errCode = 0 ∧
      (decode s.pend = .encode ∨ decode s.pend = .decode ∨ decode s.pend = .clear) := by
  cases stepEvent_of_step h with
  | completion now run => exact ⟨now, exec_csum_changes run hc⟩
  | reset head => exact absurd head (hr _)
  | issue | ctrlWrite | statusWrite | droppedWrite | other => exact absurd rfl hc

theorem digest_changes {s t : State} (h : step s = .next t) (hr : ∀ rest, s.agenda ≠ .reset :: rest)
    (hd : t.digest ≠ s.digest) : completesNow s = true ∧ t.errCode = 0 ∧
      (decode s.pend = .hash ∨ decode s.pend = .clear) := by
  cases stepEvent_of_step h with
  | completion now run => exact ⟨now, exec_digest_changes run hd⟩
  | reset head => exact absurd head (hr _)
  | issue | ctrlWrite | statusWrite | droppedWrite | other => exact absurd rfl hd

theorem pend_changes {s t : State} (h : step s = .next t) (hr : ∀ rest, s.agenda ≠ .reset :: rest)
    (hp : t.pend ≠ s.pend) : s.statusBusy = false ∧ ∃ v rest, s.agenda = wr 0x04 v :: rest := by
  cases stepEvent_of_step h with
  | issue idle head => exact ⟨idle, _, _, head⟩
  | completion _ run =>
    obtain ⟨-, -, -, -, pend, -⟩ := exec_control run
    exact absurd pend hp
  | reset head => exact absurd head (hr _)
  | ctrlWrite | statusWrite | droppedWrite | other => exact absurd rfl hp

/-- Settles O17: the changes of each register, by the events of a step. -/
theorem resultRegistersChangeOnlyAsListed : Obligations.ResultRegistersChangeOnlyAsListed := by
  intro s t h hr
  refine ⟨csum_changes h hr, digest_changes h hr, fun he => ?_, pend_changes h hr⟩
  obtain now | issued | ⟨rest, head⟩ := errorResult_changes h he
  · exact .inl now
  · exact .inr issued
  · exact absurd head (hr rest)

/-! ### The interrupt output (R49) -/

/-- After a completion, which sets DONE, irq is IE. -/
theorem irq_of_completesNow {s t : State} (now : completesNow s = true) (h : step s = .next t) : t.irq = s.ctrlIe := by
  obtain ⟨rest, hs⟩ := step_of_completesNow now
  rw [hs] at h
  obtain ⟨-, done, -, ie, -⟩ := exec_control h
  simp [State.irq, done, ie]

theorem irq_rises {s t : State} (h : step s = .next t) (hs : s.irq = false) (ht : t.irq = true) :
    (completesNow s = true ∧ s.ctrlIe = true) ∨
    (s.statusDone = true ∧ ∃ v rest, s.agenda = wr 0x00 v :: rest ∧ v.getLsbD 0 = true) := by
  cases stepEvent_of_step h with
  | completion now => exact .inl ⟨now, irq_of_completesNow now h ▸ ht⟩
  | ctrlWrite head =>
    obtain ⟨hv, hd⟩ : _ ∧ s.statusDone = true := by simpa [State.irq] using ht
    exact .inr ⟨hd, _, _, head, hv⟩
  | statusWrite => simp_all [State.irq]
  | reset | issue => simp [State.irq] at ht
  | droppedWrite | other => exact absurd (hs.symm.trans ht) (by decide)

/-- Settles O18: irq after each event that moves it, and the only events at which it rises. -/
theorem irqIsEnabledDone : Obligations.IrqIsEnabledDone := by
  refine ⟨fun s => by simp [State.irq], fun _ _ => irq_of_completesNow, ?_, ?_, ?_, fun _ _ => irq_rises, rfl⟩
  · intro s t v rest ha h
    cases (step_wr_ctrl ha).symm.trans h
    rfl
  · intro s t v rest ha h
    cases (step_wr_status ha).symm.trans h
    simp [State.irq, Bool.and_assoc]
  · intro s t v rest ha hb h
    cases (step_wr_cmd_of_idle ha hb).symm.trans h
    simp [State.irq]

/-! ### Ignored accesses, STATUS and CTRL (R32, R35, R44, R45) -/

/-- Settles O25: such a write reaches no register, and a reserved register reads 0. -/
theorem readOnlyAndReservedWritesIgnored : Obligations.ReadOnlyAndReservedWritesIgnored := by
  intro s off v rest ha
  constructor
  · intro head listed
    rw [step_wr head ha, writeRegister_of_ignoresWrites _ _ ((ignoresWrites_regAt off ha).2 listed)]
    rfl
  · intro head reserved
    have hr := regAt_reserved off reserved
    rw [step_rd_of_specified head ha (by rw [hr]; rfl), hr]
    rfl

/-- Settles O26: the step is the write-1-to-clear of DONE and OVR. -/
theorem statusWriteClearsNamedBits : Obligations.StatusWriteClearsNamedBits := by
  intro s v rest head
  refine ⟨_, step_wr_status head, rfl, ?_, ?_, ?_, ?_⟩ <;> intro hv <;> simp at hv <;> simp [hv]

/-- Settles O27: CTRL is written at once and read alone, and gates irq. -/
theorem ctrlHoldsInterruptEnable : Obligations.CtrlHoldsInterruptEnable := by
  refine ⟨rfl, fun s => ?_, fun s rest => ⟨fun v head => step_wr_ctrl head, fun head => ?_⟩⟩
  · unfold State.irq
    cases s.ctrlIe <;> rfl
  · rw [step_rd_of_specified head rfl rfl, ← ctrlWord_eq]
    rfl

end Sys2Proof.Machine
end

section
/-! ## The bus: legal and illegal accesses, address decoding, and the operands of a running command (20_memory.md)

A busy block may change CTRL and STATUS and the model's own fields, and nothing else: that is said once of a request, then
of a step, then of a run. -/

namespace Sys2Proof.Machine

/-! ### A command in flight (R87, R251) -/

/-- R346: a write the busy rule lets through reaches CTRL and STATUS at most. -/
theorem storeRegister_of_not_dropped {r : Reg} (v : Word) (s : State) (h : droppedWhileBusy r = false) :
    ∃ ie done ovr, storeRegister r v s = { s with ctrlIe := ie, statusDone := done, statusOvr := ovr } := by
  cases r with
  | ctrl | status | errCode | errInfo | csum | digest | reserved => exact ⟨_, _, _, rfl⟩
  | cmd | entLen | wcount | ent | idx => cases h

/-- R344, R346: a write to a busy block sets OVR or reaches CTRL and STATUS at most. -/
theorem writeRegister_of_busy {s : State} (r : Reg) (v : Word) (hb : s.statusBusy = true) :
    ∃ ie done ovr, writeRegister r v s = { s with ctrlIe := ie, statusDone := done, statusOvr := ovr } := by
  obtain ⟨-, -, hw⟩ | ⟨idle | free, hw⟩ := writeRegister_cases r v s
  · exact ⟨_, _, _, hw⟩
  · exact absurd (hb.symm.trans idle) (by decide)
  · rw [hw]; exact storeRegister_of_not_dropped v s free

/-- R74: a read moves the count of free values at most. -/
theorem afterRead_eq (r : Reg) (s : State) : afterRead r s = { s with draws := (afterRead r s).draws } := by
  unfold afterRead
  split <;> rfl

theorem busRequest_of_busy {s : State} (r : Request) (hb : s.statusBusy = true) :
    ∃ ie done ovr response draws, busRequest r s =
      { s with ctrlIe := ie, statusDone := done, statusOvr := ovr, response := response, draws := draws } := by
  obtain ⟨_, -, ht⟩ | ⟨off, -, ⟨-, ht⟩ | ⟨-, -, ht⟩ | ⟨-, -, ht⟩⟩ := busRequest_cases r s
  · exact ⟨_, _, _, _, _, ht⟩
  · exact ⟨_, _, _, _, _, ht⟩
  · obtain ⟨ie, done, ovr, hw⟩ := writeRegister_of_busy (regAt off) r.wdata hb
    rw [ht, hw]
    exact ⟨ie, done, ovr, _, _, rfl⟩
  · rw [ht, afterRead_eq]
    exact ⟨_, _, _, _, _, rfl⟩

/-- A step between two busy states is a request to the busy block: it changes CTRL, STATUS and the model's own fields at
most. -/
theorem step_within_command {s t : State} (h : step s = .next t) (hs : s.statusBusy = true) (ht : t.statusBusy = true) :
    ∃ ie done ovr agenda response draws, t =
      { s with
        ctrlIe := ie, statusDone := done, statusOvr := ovr, agenda := agenda, response := response, draws := draws } := by
  obtain ⟨-, -, run⟩ | ⟨-, _, -, run⟩ | ⟨idle, -⟩ | ⟨idle, -⟩ | ⟨r, rest, -, rfl⟩ | ⟨_, -, rfl⟩ := step_cases h
  · simp [(exec_control run).1] at ht
  · simp [(exec_control run).1] at ht
  · simp [hs] at idle
  · simp [hs] at idle
  · obtain ⟨_, _, _, _, _, hr⟩ := busRequest_of_busy (s := { s with agenda := rest }) r hs
    exact ⟨_, _, _, _, _, _, hr⟩
  · simp at ht

theorem BusySteps.last_busy {s t : State} (h : BusySteps s t) : t.statusBusy = true := by
  cases h with
  | refl hb => exact hb
  | tail _ _ hb => exact hb

/-- R251: within one command a run changes CTRL, STATUS and the model's own fields at most. -/
theorem BusySteps.frame {s t : State} (h : BusySteps s t) :
    ∃ ie done ovr agenda response draws, t =
      { s with
        ctrlIe := ie, statusDone := done, statusOvr := ovr, agenda := agenda, response := response, draws := draws } := by
  induction h with
  | refl => exact ⟨_, _, _, _, _, _, rfl⟩
  | tail hrun hstep hb ih =>
    obtain ⟨_, _, _, _, _, _, ht⟩ := step_within_command hstep hrun.last_busy hb
    obtain ⟨_, _, _, _, _, _, rfl⟩ := ih
    exact ⟨_, _, _, _, _, _, ht⟩

/-- Settles O11: the frame of a run within one command names none of these registers. -/
theorem operandsFrozenWhileBusy : Obligations.OperandsFrozenWhileBusy := by
  intro s t h
  obtain ⟨_, _, _, _, _, _, rfl⟩ := h.frame
  exact ⟨rfl, rfl, rfl, rfl, rfl, rfl, rfl⟩

/-! ### Legal reads (R74) -/

/-- R74: a read that is not both busy and of BUSY_UNSPECIFIED answers the register and draws no free value. -/
theorem readValue_of_defined {r : Reg} {s : State} (h : (s.statusBusy && busyUnspecified r) = false) :
    readValue r s = registerValue r s := by
  rw [readValue, h]; rfl

theorem afterRead_of_defined {r : Reg} {s : State} (h : (s.statusBusy && busyUnspecified r) = false) :
    afterRead r s = s := by
  rw [afterRead, h]; rfl

theorem registerValue_agenda (r : Reg) (s : State) (agenda : List Event) :
    registerValue r { s with agenda := agenda } = registerValue r s := by
  cases r <;> rfl

/-- The step of such a read. -/
theorem step_rd_of_defined {s : State} {off : BitVec 8} {rest : List Event} (h : s.agenda = rd off :: rest)
    (ha : off.toNat % 4 = 0) (hd : (s.statusBusy && busyUnspecified (regAt off)) = false) :
    step s = .next (respond .okay (registerValue (regAt off) s) { s with agenda := rest }) := by
  rw [step_rd h ha, readValue_of_defined (s := { s with agenda := rest }) hd, registerValue_agenda,
    afterRead_of_defined (s := { s with agenda := rest }) hd]

/-- R345: the step of a busy read of BUSY_UNSPECIFIED, which draws a free value. -/
theorem step_rd_of_unspecified {s : State} {off : BitVec 8} {rest : List Event} (h : s.agenda = rd off :: rest)
    (ha : off.toNat % 4 = 0) (hb : s.statusBusy = true) (hu : busyUnspecified (regAt off) = true) :
    step s = .next (respond .okay (Config.busyRead s.draws) { s with agenda := rest, draws := s.draws + 1 }) := by
  simp [step_rd h ha, readValue, afterRead, hb, hu]

/-- R34: STATUS as read, as a number. -/
theorem statusWord_toNat (s : State) : (statusWord s).toNat = (if s.statusBusy then 1 else 0) +
    (if s.statusDone then 2 else 0) + (if s.errCode ≠ 0 then 4 else 0) + (if s.statusOvr then 8 else 0) := by
  have err : (if s.errCode ≠ 0 then 4 else 0) = if s.statusErr then 4 else 0 := by simp
  rw [err]
  unfold statusWord
  cases s.statusOvr <;> cases s.statusErr <;> cases s.statusDone <;> cases s.statusBusy <;> rfl

/-- R31 to R44: what the register at each offset reads as. -/
theorem registerValue_regAt (s : State) (off : BitVec 8) :
    (off.toNat = 0x00 → registerValue (regAt off) s = if s.ctrlIe then 1 else 0) ∧
    (off.toNat = 0x04 → registerValue (regAt off) s = 0) ∧
    (off.toNat = 0x08 → (registerValue (regAt off) s).toNat = (if s.statusBusy then 1 else 0) +
      (if s.statusDone then 2 else 0) + (if s.errCode ≠ 0 then 4 else 0) + (if s.statusOvr then 8 else 0)) ∧
    (off.toNat = 0x0C → (registerValue (regAt off) s).toNat = s.errCode.toNat) ∧
    (off.toNat = 0x10 → registerValue (regAt off) s = s.errInfo) ∧
    (off.toNat = 0x14 → registerValue (regAt off) s = s.entLen) ∧
    (off.toNat = 0x18 → registerValue (regAt off) s = s.wcount) ∧
    (off.toNat = 0x1C → (registerValue (regAt off) s).toNat = s.csum.toNat) ∧
    (∀ k : Fin 8, off.toNat = 0x20 + 4 * k.val → registerValue (regAt off) s = s.ent[k]) ∧
    (∀ k : Fin 8, off.toNat = 0x40 + 4 * k.val → registerValue (regAt off) s = s.digest[k]) ∧
    (∀ j : Fin 24, off.toNat = 0x60 + 4 * j.val → registerValue (regAt off) s = s.idx[j]) ∧
    (0xC0 ≤ off.toNat → registerValue (regAt off) s = 0) := by
  refine ⟨fun h => ?_, fun h => ?_, fun h => ?_, fun h => ?_, fun h => ?_, fun h => ?_, fun h => ?_, fun h => ?_,
    fun k h => ?_, fun k h => ?_, fun j h => ?_, fun h => ?_⟩
  · rw [offset_eq h]; exact ctrlWord_eq s
  · rw [offset_eq h]; rfl
  · rw [offset_eq h]; exact statusWord_toNat s
  · rw [offset_eq h]; exact BitVec.toNat_setWidth_of_le (by decide)
  · rw [offset_eq h]; rfl
  · rw [offset_eq h]; rfl
  · rw [offset_eq h]; rfl
  · rw [offset_eq h]; exact BitVec.toNat_setWidth_of_le (by decide)
  · rw [offset_eq h, regAt_ent]; rfl
  · rw [offset_eq h, regAt_digest]; rfl
  · rw [offset_eq h, regAt_idx]; rfl
  · rw [regAt_reserved off h]; rfl

/-- Settles O21: a busy read of BUSY_UNSPECIFIED is exempt, and any other answers the register at its offset. -/
theorem legalReadAnswersRegister : Obligations.LegalReadAnswersRegister := by
  intro s off rest head ha
  cases hd : s.statusBusy && busyUnspecified (regAt off) with
  | false => exact ⟨_, _, step_rd_of_defined head ha hd, fun _ => ⟨rfl, registerValue_regAt s off⟩⟩
  | true =>
    obtain ⟨busy, unspecified⟩ := Bool.and_eq_true_iff.1 hd
    obtain ⟨low, high⟩ := (busyUnspecified_regAt off).1 unspecified
    refine ⟨_, _, step_rd_of_unspecified head ha busy unspecified, ?_⟩
    rintro (idle | below | above)
    · exact absurd (busy.symm.trans idle) (by decide)
    · omega
    · omega

/-! ### Address decoding and illegal accesses (R71, R73) -/

/-- R71: the address at an offset of the window decodes to it. -/
theorem decodeAddress_base_add (off : BitVec 8) : decodeAddress (Config.base + off.toNat) = .window off := by
  have inside : Config.base ≤ Config.base + off.toNat ∧ Config.base + off.toNat < Config.base + 256 := by omega
  rw [decodeAddress, if_pos inside, Nat.add_sub_cancel_left, BitVec.ofNat_toNat, BitVec.setWidth_eq]

/-- The step of a request. -/
theorem step_bus {s : State} {r : Request} {rest : List Event} (h : s.agenda = .bus r :: rest) :
    step s = .next (busRequest r { s with agenda := rest }) := by
  simp [step, h]

/-- Settles O19: the two branches of the decoding, and the request outside, which is not seen. -/
theorem addressDecodingSelectsWindow : Obligations.AddressDecodingSelectsWindow := by
  refine ⟨Nat.mul_mod_right .., fun addr low high => if_pos ⟨low, high⟩, fun addr outside => if_neg (by omega),
    fun off v => ?_, fun s r addr rest head outside => ?_⟩
  · rw [memWrite, memRead, decodeAddress_base_add]
    exact ⟨rfl, rfl⟩
  · rw [step_bus head, busRequest, outside]

/-- Settles O20: such a request is no legal access, so it is answered ERROR and reaches no register. -/
theorem illegalAccessChangesNothing : Obligations.IllegalAccessChangesNothing := by
  intro s r off rest head inside illegal
  have hl : legalAccess r.size off = false := by
    rw [← Bool.not_eq_true, legalAccess_iff]
    exact fun ⟨word, aligned⟩ => illegal.elim (· word) (· aligned)
  rw [step_bus head, busRequest, inside]
  simp [windowAccess, hl, respond]

/-! ### Writes to the idle block (R75) -/

/-- The step of a legal write to the idle block. -/
theorem step_wr_of_idle {s : State} {off : BitVec 8} {v : Word} {rest : List Event} (h : s.agenda = wr off v :: rest)
    (ha : off.toNat % 4 = 0) (hb : s.statusBusy = false) :
    step s = .next (respond .okay 0 (storeRegister (regAt off) v { s with agenda := rest })) := by
  rw [step_wr h ha, writeRegister_of_idle (s := { s with agenda := rest }) _ _ hb]

/-- Settles O23: the step stores to the register at the offset. -/
theorem idleWriteStoresRegister : Obligations.IdleWriteStoresRegister := by
  intro s off v rest head hb
  refine ⟨fun ho => ?_, fun ho => ?_, fun k ho => ?_, fun j ho => ?_⟩
  · rw [step_wr_of_idle head (by omega) hb, offset_eq ho]; rfl
  · rw [step_wr_of_idle head (by omega) hb, offset_eq ho]; rfl
  · rw [step_wr_of_idle head (by omega) hb, offset_eq ho, regAt_ent]; rfl
  · rw [step_wr_of_idle head (by omega) hb, offset_eq ho, regAt_idx]; rfl

end Sys2Proof.Machine
end

section
/-! ## The encoding: command words, byte strings, the two bit streams, command rows and loads (30_encoding.md)

The words and the streams are read as numbers: a command word by its two fields, a stream by its slices. -/

namespace Sys2Proof.Machine

/-! ### Command words (R100 to R102, R104) -/

/-- R100: a word by its fields MBZ and OP. -/
theorem toNat_eq_fields (v : Word) : v.toNat = 16 * (v.extractLsb' 4 28).toNat + (v.extractLsb' 0 4).toNat := by
  have := v.isLt
  simp only [BitVec.extractLsb'_toNat, Nat.shiftRight_eq_div_pow]
  omega

/-- R104: the words with the fields of no command are 0 and those from 6 on. -/
theorem illegal_fields_iff (v : Word) :
    (v.extractLsb' 4 28 ≠ 0 ∨ (v.extractLsb' 0 4).toNat = 0 ∨
      (6 ≤ (v.extractLsb' 0 4).toNat ∧ (v.extractLsb' 0 4).toNat ≤ 15)) ↔ v.toNat = 0 ∨ 6 ≤ v.toNat := by
  have hv := toNat_eq_fields v
  have hop := (v.extractLsb' 0 4).isLt
  have hmbz : v.extractLsb' 4 28 ≠ 0 ↔ (v.extractLsb' 4 28).toNat ≠ 0 := BitVec.toNat_ne_iff_ne.symm
  rw [hmbz]
  omega

/-- R102: a word decodes as the default row, or is one of the five command words. -/
theorem decode_cases (v : Word) :
    ((v.toNat = 0 ∨ 6 ≤ v.toNat) ∧ decode v = .illegal v) ∨
    (v = 1 ∧ decode v = .validate) ∨ (v = 2 ∧ decode v = .encode) ∨ (v = 3 ∧ decode v = .decode) ∨
    (v = 4 ∧ decode v = .hash) ∨ (v = 5 ∧ decode v = .clear) := by
  unfold decode
  split_ifs with h1 h2 h3 h4 h5
  · exact .inr (.inl ⟨h1, rfl⟩)
  · exact .inr (.inr (.inl ⟨h2, rfl⟩))
  · exact .inr (.inr (.inr (.inl ⟨h3, rfl⟩)))
  · exact .inr (.inr (.inr (.inr (.inl ⟨h4, rfl⟩))))
  · exact .inr (.inr (.inr (.inr (.inr ⟨h5, rfl⟩))))
  · exact .inl ⟨by bv_omega, rfl⟩

/-- Settles O6: each word is one of the decoder's cases. -/
theorem commandWordsOfTheMap : Obligations.CommandWordsOfTheMap := by
  unfold Obligations.CommandWordsOfTheMap
  decide

/-- Settles O7: an illegal word is none of the five numbers, and its fields say so. -/
theorem exactlyFiveWordsAreCommands : Obligations.ExactlyFiveWordsAreCommands := by
  intro v
  rw [illegal_fields_iff]
  obtain ⟨hv, h⟩ | ⟨rfl, h⟩ | ⟨rfl, h⟩ | ⟨rfl, h⟩ | ⟨rfl, h⟩ | ⟨rfl, h⟩ := decode_cases v <;> rw [h]
  · have hne : v ≠ 1#32 ∧ v ≠ 2#32 ∧ v ≠ 3#32 ∧ v ≠ 4#32 ∧ v ≠ 5#32 := by bv_omega
    simp [hv, hne]
  all_goals simp

/-! ### Byte strings (R105, R106) -/

theorem byteOfWord_eq_extractLsb' (w : Word) (b : Nat) : byteOfWord w b = w.extractLsb' (24 - 8 * b) 8 := by
  apply BitVec.eq_of_getLsbD_eq
  intro i _
  rw [getLsbD_byteOfWord, BitVec.getLsbD_extractLsb']

/-- Settles O30: packing and reading back are inverse, by byte for ENT and by word for DIGEST. -/
theorem byteStringsPackBigEndian : Obligations.ByteStringsPackBigEndian := by
  refine ⟨fun ent i => byteOfWord_eq_extractLsb' .., fun e he => ⟨entropyBytes_packEntropy he, fun i => ?_⟩,
    fun d k => ?_, fun m => digestWords_bytesOfWords _⟩
  · rw [entByte_packEntropy]
    split
    · rfl
    · exact List.getD_eq_default _ _ (by omega)
  · rw [Fin.getElem_fin, digestWords, Vector.getElem_ofFn, wordOfBytes]

/-! ### The bit streams (R109 to R111) -/

/-- Settles O31: a group is a slice of the number whose bits are the stream. -/
theorem groupsAreStreamSlices : Obligations.GroupsAreStreamSlices := by
  intro e j he hj
  obtain ⟨hbits, hcs, -⟩ := lengths_of_entropy he
  have slice := bitsToUint_eq (fun _ => streamBit_eq hcs) (show 11 * j + 11 ≤ 8 * e.length + e.length / 4 by omega)
  have start : 8 * e.length + e.length / 4 - (11 * j + 11) = 11 * (3 * e.length / 4 - 1 - j) := by omega
  exact ⟨hbits, by rw [groupAt_eq, slice, start, Nat.pow_mul], Nat.le_of_lt_succ (groupAt_lt ..)⟩

/-- R111: joining indices that name words is writing them in base 2048. -/
theorem joinGroups_eq_sum {is : List Word} (h : ∀ i ∈ is, i.toNat ≤ 2047) :
    joinGroups is =
      ((List.range is.length).map fun j => (is.getD j 0).toNat * 2 ^ (11 * (is.length - 1 - j))).sum := by
  rw [joinGroups_eq_ofDigitsBE, ofDigitsBE_eq_sum, List.length_map]
  congr 1
  apply List.map_congr_left
  intro j hj
  have hj := List.mem_range.1 hj
  have hi := h is[j] (List.getElem_mem hj)
  rw [List.getD_eq_getElem _ _ (by simpa using hj), List.getElem_map, List.getD_eq_getElem _ _ hj, ← Nat.pow_mul,
    Nat.mod_eq_of_lt (by omega)]

/-- R180: byte `q` of the candidate entropy is eight bits of the stream. -/
theorem toNat_getD_candidateEntropy (v : Nat) {n q : Nat} (hq : q < 4 * n / 3) :
    ((candidateEntropy v n).getD q 0).toNat = v / 2 ^ (n / 3 + 8 * (4 * n / 3 - 1 - q)) % 2 ^ 8 := by
  rw [candidateEntropy_eq, List.getD_eq_getElem _ _ (by simpa using hq)]
  simp only [bytesBE, List.getElem_map, List.getElem_range, BitVec.toNat_ofNat]
  rw [Nat.shiftRight_eq_div_pow, Nat.div_div_eq_div_mul, Nat.pow_add]

/-- R111: `int_be` of the candidate entropy is the stream without its checksum bits. -/
theorem intBE_candidateEntropy {v n : Nat} (hn : n ∈ [12, 15, 18, 21, 24]) (hv : v < 2 ^ (11 * n)) :
    intBE (candidateEntropy v n) = v >>> (n / 3) := by
  obtain ⟨-, hbits, -⟩ := lengths_of_count hn
  have hlt : v >>> (n / 3) < 2 ^ (8 * (4 * n / 3)) := by
    rw [Nat.shiftRight_eq_div_pow, Nat.div_lt_iff_lt_mul (by positivity), ← Nat.pow_add, ← hbits]
    exact hv
  rw [candidateEntropy, intBE_bytesBE, Nat.mod_eq_of_lt hlt]

/-- R111: `bits_to_uint` of an index sequence is a slice of its joined number. -/
theorem bitsToUint_indexStreamBit {is : List Word} (h : ∀ i ∈ is, i.toNat ≤ 2047) {p w : Nat}
    (hp : p + w ≤ 11 * is.length) :
    bitsToUint (indexStreamBit is) p w = joinGroups is / 2 ^ (11 * is.length - (p + w)) % 2 ^ w :=
  bitsToUint_eq (fun _ => indexStreamBit_eq h) hp

/-- Settles O32: each extracted part is a slice of the joined number, and so is its reading by bits. -/
theorem reassemblyFollowsBitStream : Obligations.ReassemblyFollowsBitStream := by
  intro is hn hk
  obtain ⟨hcs, hbits, -⟩ := lengths_of_count hn
  refine ⟨joinGroups_eq_sum hk, length_bytesBE .., fun q hq => ?_, intBE_candidateEntropy hn (joinGroups_lt is), ?_⟩
  · have start : 11 * is.length - (8 * q + 8) = is.length / 3 + 8 * (4 * is.length / 3 - 1 - q) := by omega
    rw [toNat_getD_candidateEntropy _ hq, bitsToUint_indexStreamBit hk (by omega), start]
  · have last : 11 * is.length - (32 * is.length / 3 + is.length / 3) = 0 := by omega
    rw [foundChecksum_toNat hcs, bitsToUint_indexStreamBit hk (by omega), last, Nat.pow_zero, Nat.div_one]

/-! ### Command rows (R103) -/

/-- What holds of a command's result and of every error on `s` holds after every completion. -/
theorem exec_induction {i : Instr} {s : State} {P : State → Prop} (ok : P (completeOk (commandResult i s)))
    (fail : ∀ e info, P (raiseError e info s)) (t : State) (h : exec i s = .next t) : P t := by
  obtain rfl | ⟨e, info, rfl⟩ := exec_writes_result_or_fails h
  · exact ok
  · exact fail e info

/-- Settles O53: the result of each command and the error on `s` differ from `s` in the row alone. -/
theorem commandsWriteOnlyTheirRow : Obligations.CommandsWriteOnlyTheirRow := fun _ =>
  ⟨exec_induction rfl fun _ _ => rfl, exec_induction rfl fun _ _ => rfl, exec_induction rfl fun _ _ => rfl,
    exec_induction rfl fun _ _ => rfl, fun _ h => by cases h; rfl, fun _ => exec_induction rfl fun _ _ => rfl⟩

/-! ### Loads (R113) -/

/-- Settles O55: the scripts' effects are those of `performs_loadEnt` and `performs_loadIdx`. -/
theorem loadsFillOperands : Obligations.LoadsFillOperands := by
  intro s hb
  constructor
  · intro e he
    obtain ⟨ent, r, loaded, bytes⟩ := performs_loadEnt e he hb
    exact ⟨_, loaded.runScript, rfl, bytes⟩
  · intro is hl
    obtain ⟨idx, r, loaded, indices⟩ := performs_loadIdx is hl hb
    exact ⟨_, loaded.runScript, rfl, indices⟩

end Sys2Proof.Machine
end

section
/-! ## VALIDATE, the Entropy Validator (40_validate.md)

What VALIDATE leaves depends on ENT_LEN alone, which neither the command nor its issue writes: so a second VALIDATE
finds the length the first one checked, and ends the same way. -/

namespace Sys2Proof.Machine

/-! ### The length check (R131) -/

/-- R131: VALIDATE on a permitted length succeeds. -/
theorem exec_validate_of_valid {s : State} (h : s.entLen.toNat ∈ [16, 20, 24, 28, 32]) :
    exec .validate s = .next (completeOk s) :=
  if_pos (validEntLen_iff.2 h)

/-- R131: VALIDATE on any other length reports it. -/
theorem exec_validate_of_invalid {s : State} (h : s.entLen.toNat ∉ [16, 20, 24, 28, 32]) :
    exec .validate s = .next (raiseError .invalidEntropyLength s.entLen s) :=
  if_neg (mt validEntLen_iff.1 h)

/-- Settles O37: the two ends of a completion write the flags and the error result alone. -/
theorem validateChecksLengthOnly : Obligations.ValidateChecksLengthOnly :=
  fun _ => ⟨exec_validate_of_valid, exec_validate_of_invalid⟩

/-! ### Two in a row (R132) -/

/-- The state that VALIDATE, issued to an idle block and completed, leaves: `issue` puts its word into PEND, and the write
of CMD is answered OKAY. -/
def validated (s : State) : State :=
  let issued := respond .okay 0 (issue 1 s)
  if s.entLen.toNat ∈ [16, 20, 24, 28, 32] then completeOk issued
  else raiseError .invalidEntropyLength s.entLen issued

theorem validated_of_valid {s : State} (h : s.entLen.toNat ∈ [16, 20, 24, 28, 32]) :
    validated s = completeOk (respond .okay 0 (issue 1 s)) :=
  if_pos h

theorem validated_of_invalid {s : State} (h : s.entLen.toNat ∉ [16, 20, 24, 28, 32]) :
    validated s = raiseError .invalidEntropyLength s.entLen (respond .okay 0 (issue 1 s)) :=
  if_neg h

theorem exec_validate_issued (s : State) : exec .validate (respond .okay 0 (issue 1 s)) = .next (validated s) := by
  by_cases h : s.entLen.toNat ∈ [16, 20, 24, 28, 32]
  · rw [validated_of_valid h]; exact exec_validate_of_valid h
  · rw [validated_of_invalid h]; exact exec_validate_of_invalid h

@[simp] theorem validated_entLen (s : State) : (validated s).entLen = s.entLen := by
  unfold validated
  split_ifs <;> rfl

/-- The block is idle again: `validated s` is what a completion leaves. -/
@[simp] theorem validated_statusBusy (s : State) : (validated s).statusBusy = false :=
  (exec_control (exec_validate_issued s)).1

/-- R132: the second VALIDATE checks the same length and writes the same values over the first one's. -/
theorem validated_validated (s : State) : validated (validated s) = validated s := by
  by_cases h : s.entLen.toNat ∈ [16, 20, 24, 28, 32]
  · have again : (validated s).entLen.toNat ∈ [16, 20, 24, 28, 32] := by rwa [validated_entLen]
    rw [validated_of_valid again, validated_of_valid h]; rfl
  · have again : (validated s).entLen.toNat ∉ [16, 20, 24, 28, 32] := by rwa [validated_entLen]
    rw [validated_of_invalid again, validated_of_invalid h]; rfl

/-- R250, R252: the issue to an idle block and the completion. -/
theorem performs_validate {s : State} (hb : s.statusBusy = false) :
    Performs [wr 0x04 1, .completion] s (validated s) :=
  (performs_wr 1 (by decide) hb).append (performs_completion rfl (exec_validate_issued s))

/-- Settles O38: the first VALIDATE leaves an idle block, on which the second one changes nothing. -/
theorem validateIsIdempotent : Obligations.ValidateIsIdempotent := by
  intro s t hb once
  have first := performs_validate hb
  have second := performs_validate (validated_statusBusy s)
  rw [validated_validated] at second
  exact (first.append second).runScript.trans (first.runScript.symm.trans once)

end Sys2Proof.Machine
end

section
/-! ## ENCODE, the Mnemonic Encoder (41_encode.md)

On a permitted length ENCODE writes the groups, the count and the checksum of the entropy value and succeeds, on any other
it reports the length: both read ENT_LEN and the bytes below it alone. -/

namespace Sys2Proof.Machine

/-! ### The entropy value (R105) -/

/-- The positions below `len` are the first `len` ones. -/
theorem filter_lt_finRange (n len : Nat) :
    (List.finRange n).filter (fun i => i.val < len) = (List.finRange n).take len := by
  have below : ∀ i ∈ (List.finRange n).take len, decide (i.val < len) = true := by
    intro i hi
    obtain ⟨k, hk, rfl⟩ := List.mem_take_iff_getElem.1 hi
    simpa using (Nat.lt_min.1 hk).1
  have above : ∀ i ∈ (List.finRange n).drop len, ¬ decide (i.val < len) = true := by
    intro i hi
    obtain ⟨k, hk, rfl⟩ := List.mem_drop_iff_getElem.1 hi
    simp
  conv_lhs => rw [← List.take_append_drop len (List.finRange n)]
  rw [List.filter_append, List.filter_eq_self.2 below, List.filter_eq_nil_iff.2 above, List.append_nil]

/-- R105: the entropy value picked out of the 32 positions by the test `i < len`. -/
theorem entropyBytes_eq_filterMap (ent : Vector Word 8) (len : Nat) :
    entropyBytes ent len =
      (List.finRange 32).filterMap fun i => if i.val < len then some (entByte ent i) else none := by
  rw [entropyBytes, ← filter_lt_finRange, ← List.filterMap_eq_map, List.filterMap_filter]
  simp

/-- R8: the entropy value of a permitted length is within the buffer. -/
theorem length_entropyBytes_of_valid (ent : Vector Word 8) {len : Nat} (h : len ∈ [16, 20, 24, 28, 32]) :
    (entropyBytes ent len).length = len := by
  obtain ⟨-, -, -, -, -, hle, -⟩ := lengths_of_entropy h
  rw [length_entropyBytes, Nat.min_eq_left hle]

/-! ### Results and error (R150) -/

/-- R150: ENCODE on a length that is not permitted reports it. -/
theorem exec_encode_of_invalid {s : State} (h : s.entLen.toNat ∉ [16, 20, 24, 28, 32]) :
    exec .encode s = .next (raiseError .invalidEntropyLength s.entLen s) :=
  if_neg (mt validEntLen_iff.1 h)

/-- R150: IDX[j] after ENCODE. -/
theorem getElem_indexBuffer (v n : Nat) (j : Fin 24) :
    (indexBuffer v n)[j] = if j.val < n then BitVec.ofNat 32 (groupAt v n j.val) else 0 := by
  rw [Fin.getElem_fin, indexBuffer, Vector.getElem_ofFn]

/-- Settles O39: the pseudocode's variables are the checksum, the packed stream and the count that ENCODE writes. -/
theorem encodeWritesIndicesCountAndChecksum : Obligations.EncodeWritesIndicesCountAndChecksum := by
  rintro s _ _ n V E cs rfl rfl hn hE hcs hV
  rw [← entropyBytes_eq_filterMap] at hE
  refine ⟨fun valid => ?_, exec_encode_of_invalid⟩
  have hlen : E.length = s.entLen.toNat := hE ▸ length_entropyBytes_of_valid s.ent valid
  rw [← hlen] at hn hcs hV
  obtain rfl : cs = checksum E := hcs
  obtain rfl : V = packedStream E := hV
  subst hn
  refine ⟨_, exec_encode_of_valid valid, ?_, fun j => ?_⟩
  · rw [← hE]; rfl
  · rw [← hE]; exact getElem_indexBuffer _ _ j

/-! ### The word counts (R151) -/

/-- R151: the rows of the table. -/
theorem wordCount_of_entropyLength : ∀ l ∈ [16, 20, 24, 28, 32],
    (BitVec.ofNat 32 l = 16 ∧ BitVec.ofNat 32 (3 * l / 4) = 12) ∨
    (BitVec.ofNat 32 l = 20 ∧ BitVec.ofNat 32 (3 * l / 4) = 15) ∨
    (BitVec.ofNat 32 l = 24 ∧ BitVec.ofNat 32 (3 * l / 4) = 18) ∨
    (BitVec.ofNat 32 l = 28 ∧ BitVec.ofNat 32 (3 * l / 4) = 21) ∨
    (BitVec.ofNat 32 l = 32 ∧ BitVec.ofNat 32 (3 * l / 4) = 24) := by decide

/-- R110: every index ENCODE writes names a word. -/
theorem indexBuffer_le (v n : Nat) (j : Fin 24) : ((indexBuffer v n)[j]).toNat ≤ 2047 := by
  by_cases h : j.val < n
  · rw [toNat_indexBuffer j h]; exact Nat.le_of_lt_succ (groupAt_lt ..)
  · rw [indexBuffer_zero j h]; exact Nat.zero_le _

/-- Settles O40: success means a permitted length, so a row of the table. -/
theorem encodeGroupCountByTable : Obligations.EncodeGroupCountByTable := by
  intro s t run ok
  by_cases valid : s.entLen.toNat ∈ [16, 20, 24, 28, 32]
  · have hlen := length_entropyBytes_of_valid s.ent valid
    have row := wordCount_of_entropyLength _ valid
    obtain ⟨-, -, -, -, hn, -⟩ := lengths_of_entropy valid
    cases (exec_encode_of_valid valid).symm.trans run
    simp only [completeOk_wcount, completeOk_idx, writeMnemonic_wcount, writeMnemonic_idx, hlen]
    refine ⟨by simpa using row, fun j => ⟨indexBuffer_le _ _ j, fun hj => indexBuffer_zero j ?_⟩⟩
    rw [BitVec.toNat_ofNat, Nat.mod_eq_of_lt (by omega)] at hj
    exact Nat.not_lt.2 hj
  · cases (exec_encode_of_invalid valid).symm.trans run
    exact absurd ok (raiseError_failed _ _ _)

/-! ### Determinism (R152) -/

/-- Settles O41: the two states have the same length and the same entropy value, from which every result is made. -/
theorem encodeIsDeterministic : Obligations.EncodeIsDeterministic := by
  intro s₁ s₂ t₁ t₂ sameLen sameBytes run₁ run₂
  have sameEntropy : entropyBytes s₁.ent s₁.entLen.toNat = entropyBytes s₂.ent s₂.entLen.toNat :=
    sameLen ▸ entropyBytes_congr sameBytes
  by_cases valid : s₁.entLen.toNat ∈ [16, 20, 24, 28, 32]
  · cases (exec_encode_of_valid valid).symm.trans run₁
    cases (exec_encode_of_valid (sameLen ▸ valid)).symm.trans run₂
    simp [sameEntropy]
  · cases (exec_encode_of_invalid valid).symm.trans run₁
    cases (exec_encode_of_invalid (sameLen ▸ valid)).symm.trans run₂
    exact ⟨rfl, sameLen, fun ok => absurd ok (raiseError_failed _ _ _)⟩

end Sys2Proof.Machine
end

section
/-! ## DECODE, the Mnemonic Decoder (42_decode.md)

DECODE ends in one of four ways, one lemma each: a count that is not permitted, an unknown word, a checksum mismatch, success.
On a permitted count of known indices all of it is said of the joined stream as a number: joining and splitting into groups are
inverse, and the checksums agree exactly when the stream is the packed stream of the entropy it holds. -/

namespace Sys2Proof.Machine

/-! ### Index lists (R180) -/

/-- R180: the indices DECODE reads are the same exactly when the positions below the count agree. -/
theorem indexList_eq_iff {idx₁ idx₂ : Vector Word 24} {n : Nat} :
    indexList idx₁ n = indexList idx₂ n ↔ ∀ j : Fin 24, j.val < n → idx₁[j] = idx₂[j] := by
  refine ⟨fun h j hj => ?_, indexList_congr⟩
  have atj := List.getElem_of_eq h (show j.val < (indexList idx₁ n).length by simp [hj])
  rwa [getElem_indexList, getElem_indexList] at atj

/-- R180: the last index is the last one joined. -/
theorem indexList_succ (idx : Vector Word 24) (j : Fin 24) :
    indexList idx (j.val + 1) = indexList idx j.val ++ [idx[j]] := by
  simp [indexList, List.take_add_one]

/-- An index changed at the count or above it is not read. -/
theorem indexList_set_self (idx : Vector Word 24) (j : Fin 24) (v : Word) :
    indexList (idx.set j v) j.val = indexList idx j.val :=
  indexList_congr fun k hk => by simp [Nat.ne_of_gt hk]

/-- R183: the known indices below the count, by position. -/
theorem indexList_known_iff {idx : Vector Word 24} {n : Nat} :
    (∀ i ∈ indexList idx n, i.toNat ≤ 2047) ↔ ∀ j : Fin 24, j.val < n → (idx[j]).toNat ≤ 2047 := by
  simp only [List.forall_mem_iff_getElem, getElem_indexList, length_indexList]
  exact ⟨fun h j hj => h j.val (by omega), fun h j hj => h ⟨j, by omega⟩ (by simp; omega)⟩

/-! ### The joined stream (R110, R111) -/

/-- R111: the stream of the indices below the count as a sum over the 24 positions. -/
theorem joinGroups_indexList_eq_sum {idx : Vector Word 24} {n : Nat} (hn : n ≤ 24)
    (known : ∀ j : Fin 24, j.val < n → (idx[j]).toNat ≤ 2047) :
    joinGroups (indexList idx n) = ((List.finRange 24).map fun j =>
      if j.val < n then (idx[j]).toNat * 2 ^ (11 * (n - 1 - j.val)) else 0).sum := by
  have hlen : (indexList idx n).length = n := by simp [hn]
  rw [joinGroups_eq_sum (indexList_known_iff.2 known), hlen,
    ← sum_finRange (fun j => ((indexList idx n).getD j 0).toNat * 2 ^ (11 * (n - 1 - j))) hn]
  congr 2
  funext j
  split_ifs with hj
  · rw [List.getD_eq_getElem _ _ (by rw [hlen]; exact hj), getElem_indexList, Fin.getElem_fin]
  · rfl

/-- R110, R111: splitting into groups and joining again. -/
theorem joinGroups_indexBuffer {v n : Nat} (hn : n ≤ 24) (hv : v < 2 ^ (11 * n)) :
    joinGroups (indexList (indexBuffer v n) n) = v := by
  rw [indexList_indexBuffer hn, joinGroups_groups hv]

/-- R110, R111: joining known indices and splitting again. -/
theorem indexBuffer_joinGroups {is : List Word} (hn : is.length ≤ 24) (known : ∀ i ∈ is, i.toNat ≤ 2047) :
    indexList (indexBuffer (joinGroups is) is.length) is.length = is := by
  rw [indexList_indexBuffer hn]
  refine List.ext_getElem (by simp) fun j _ hj => ?_
  rw [List.getElem_map, List.getElem_range, groupAt_joinGroups known hj, BitVec.ofNat_toNat, BitVec.setWidth_eq]

/-- R111: two known sequences of one count with the same stream are the same. -/
theorem joinGroups_injective {is₁ is₂ : List Word} (hn : is₁.length ≤ 24) (hlen : is₁.length = is₂.length)
    (known₁ : ∀ i ∈ is₁, i.toNat ≤ 2047) (known₂ : ∀ i ∈ is₂, i.toNat ≤ 2047) (h : joinGroups is₁ = joinGroups is₂) :
    is₁ = is₂ := by
  rw [← indexBuffer_joinGroups hn known₁, ← indexBuffer_joinGroups (hlen ▸ hn) known₂, h, hlen]

/-! ### The split of the stream (R180, R182) -/

@[simp] theorem length_candidateEntropy (v n : Nat) : (candidateEntropy v n).length = 4 * n / 3 := length_bytesBE ..

/-- R108, R184: the checksum recomputed over the candidate entropy has CS = n/3 bits. -/
theorem checksum_candidateEntropy (v : Nat) {n : Nat} (hn : n ∈ [12, 15, 18, 21, 24]) :
    checksum (candidateEntropy v n) = (sha256 (candidateEntropy v n))[0] >>> (8 - n / 3) := by
  obtain ⟨-, -, hcs, -⟩ := lengths_of_count hn
  rw [checksum, length_candidateEntropy, hcs]

/-- R182: a stream is its entropy bits and its checksum bits. -/
theorem stream_ext {v w n : Nat} (hcs : n / 3 ≤ 8) (entropy : v / 2 ^ (n / 3) = w / 2 ^ (n / 3))
    (check : foundChecksum v n = foundChecksum w n) : v = w := by
  have bits := congrArg BitVec.toNat check
  rw [foundChecksum_toNat hcs, foundChecksum_toNat hcs] at bits
  rw [← Nat.div_add_mod v (2 ^ (n / 3)), entropy, bits, Nat.div_add_mod]

/-- R189: the entropy bits of a stream see the last index without its checksum bits. -/
theorem joinGroups_concat_div {is : List Word} {i : Word} (hi : i.toNat ≤ 2047) {c : Nat} (hc : c ≤ 11) :
    joinGroups (is ++ [i]) / 2 ^ c = 2 ^ (11 - c) * joinGroups is + (i >>> c).toNat := by
  rw [joinGroups_concat, Nat.mod_eq_of_lt (by omega), BitVec.toNat_ushiftRight, Nat.shiftRight_eq_div_pow,
    ← Nat.mul_add_div (by positivity : 0 < 2 ^ c), ← Nat.mul_assoc, ← Nat.pow_add, Nat.add_sub_cancel' hc, Nat.mul_comm]

/-! ### The four ends of DECODE (R180 to R185) -/

/-- R181: DECODE of a count that is not permitted reports it. -/
theorem exec_decode_of_invalid {s : State} (h : s.wcount.toNat ∉ [12, 15, 18, 21, 24]) :
    exec .decode s = .next (raiseError .invalidWordCount s.wcount s) :=
  if_neg (mt validWordCount_iff.1 h)

/-- R183: DECODE of an index that names no word reports the lowest position of one. -/
theorem exec_decode_of_unknown {s : State} {j : Fin 24} (hn : s.wcount.toNat ∈ [12, 15, 18, 21, 24])
    (hj : j.val < s.wcount.toNat) (unknown : 2047 < (s.idx[j]).toNat)
    (lower : ∀ k : Fin 24, k.val < j.val → (s.idx[k]).toNat ≤ 2047) :
    exec .decode s = .next (raiseError .unknownWord (BitVec.ofNat 32 j.val) s) := by
  have lowest : firstUnknown (indexList s.idx s.wcount.toNat) = some j.val := by
    refine firstUnknown_eq_some.2 ⟨by simp [hj], ?_, fun k hk => ?_⟩ <;> rw [getElem_indexList]
    · exact unknown
    · exact lower ⟨k, by omega⟩ hk
  simp only [exec, execDecode, validWordCount_iff.2 hn, if_true, lowest]

section
variable {s : State} (hn : s.wcount.toNat ∈ [12, 15, 18, 21, 24])
  (known : ∀ j : Fin 24, j.val < s.wcount.toNat → (s.idx[j]).toNat ≤ 2047)
include hn known

/-- R184, R185: DECODE of known indices whose checksums agree writes the entropy. -/
theorem exec_decode_of_match {v : Nat} (hv : v = joinGroups (indexList s.idx s.wcount.toNat))
    (h : checksum (candidateEntropy v s.wcount.toNat) = foundChecksum v s.wcount.toNat) :
    exec .decode s = .next (completeOk
      (writeEntropy (candidateEntropy v s.wcount.toNat) (foundChecksum v s.wcount.toNat) s)) := by
  rw [exec_decode_of_known hn known, ← hv, decodeStream, if_pos h]

/-- R184: DECODE of known indices whose checksums differ reports both. -/
theorem exec_decode_of_mismatch {v : Nat} (hv : v = joinGroups (indexList s.idx s.wcount.toNat))
    (h : checksum (candidateEntropy v s.wcount.toNat) ≠ foundChecksum v s.wcount.toNat) :
    exec .decode s = .next (raiseError .checksumMismatch
      (mismatchInfo (checksum (candidateEntropy v s.wcount.toNat)) (foundChecksum v s.wcount.toNat)) s) := by
  rw [exec_decode_of_known hn known, ← hv, decodeStream, if_neg h]

/-- R182, R188: DECODE accepts known indices exactly when they are the stream of the entropy they hold. -/
theorem exec_decode_accepts_iff {v : Nat} (hv : v = joinGroups (indexList s.idx s.wcount.toNat)) :
    (∃ u, exec .decode s = .next u ∧ u.errCode = 0) ↔ packedStream (candidateEntropy v s.wcount.toNat) = v := by
  have bound : v < 2 ^ (11 * s.wcount.toNat) := by
    have := joinGroups_lt (indexList s.idx s.wcount.toNat)
    obtain ⟨-, -, -, -, -, hle⟩ := lengths_of_count hn
    rwa [length_indexList, Nat.min_eq_left hle, ← hv] at this
  rw [packedStream_candidateEntropy_iff hn bound]
  constructor
  · rintro ⟨u, run, ok⟩
    obtain ⟨-, -, agree, -⟩ := exec_decode_accepted run ok
    exact hv ▸ agree
  · exact fun h => ⟨_, exec_decode_of_match hn known hv h, rfl⟩

end

/-- Settles O42: the count is checked before any index is read. -/
theorem decodeRejectsWordCount : Obligations.DecodeRejectsWordCount :=
  fun _ => exec_decode_of_invalid

/-- Settles O43: the indices are searched from position 0 on, before the stream is formed. -/
theorem decodeReportsLowestUnknownWord : Obligations.DecodeReportsLowestUnknownWord :=
  fun _ _ => exec_decode_of_unknown

/-- Settles O44: the statement's variables are the joined stream, its candidate entropy and its two checksums. -/
theorem decodeVerifiesChecksum : Obligations.DecodeVerifiesChecksum := by
  rintro s _ _ _ V E found expected rfl hn known rfl rfl hV hE hfound hexpected
  obtain ⟨-, -, -, -, -, hle⟩ := lengths_of_count hn
  rw [← joinGroups_indexList_eq_sum hle known] at hV
  obtain rfl : E = candidateEntropy V s.wcount.toNat := hE
  obtain rfl : found = foundChecksum V s.wcount.toNat := hfound
  rw [← checksum_candidateEntropy V hn] at hexpected
  subst hexpected
  refine ⟨fun agree => ⟨_, exec_decode_of_match hn known hV agree, ?_, fun i => ?_⟩, exec_decode_of_mismatch hn known hV⟩
  · rw [← length_candidateEntropy V]; rfl
  · rw [completeOk_ent, writeEntropy_ent, entByte_packEntropy]
    split_ifs with hi
    · rfl
    · exact List.getD_eq_default _ _ (by simpa using hi)

/-! ### DECODE after ENCODE (R187) -/

/-- R250, R252: a command issued to an idle block, and its completion. -/
theorem performs_command {s u : State} (op : Word) (hb : s.statusBusy = false)
    (h : exec (decode op) (respond .okay 0 (issue op s)) = .next u) : Performs [wr 0x04 op, .completion] s u :=
  (performs_wr op (by decide) hb).append (performs_completion rfl h)

/-- R105: the entropy value by position, zero from the length on. -/
theorem getD_entropyBytes (ent : Vector Word 8) (len : Nat) (i : Fin 32) :
    (entropyBytes ent len).getD i.val 0 = if i.val < len then entByte ent i else 0 := by
  split_ifs with hi
  · rw [List.getD_eq_getElem _ _ (by simp [hi]), getElem_entropyBytes]
  · exact List.getD_eq_default _ _ (by simp; omega)

/-- R187: DECODE of a state whose IDX and WCOUNT are those ENCODE wrote for `e`. -/
theorem exec_decode_of_encoded {s : State} {e : List Byte} (he : e.length ∈ [16, 20, 24, 28, 32])
    (hidx : s.idx = indexBuffer (packedStream e) (3 * e.length / 4))
    (hcount : s.wcount = BitVec.ofNat 32 (3 * e.length / 4)) :
    exec .decode s = .next (completeOk (writeEntropy e (checksum e) s)) := by
  obtain ⟨-, -, -, -, hle, -⟩ := lengths_of_entropy he
  refine exec_decode_of_groups he ?_ fun j hj => ?_
  · rw [hcount, BitVec.toNat_ofNat, Nat.mod_eq_of_lt (by omega)]
  · rw [hidx, toNat_indexBuffer j hj]

/-- The state that ENCODE of a permitted length, issued to an idle block and completed, leaves. -/
def encoded (s : State) : State :=
  completeOk (writeMnemonic (entropyBytes s.ent s.entLen.toNat) (respond .okay 0 (issue 2 s)))

/-- R187: issuing and completing ENCODE on an idle block with a permitted length. -/
theorem performs_encode {s : State} (hb : s.statusBusy = false) (valid : s.entLen.toNat ∈ [16, 20, 24, 28, 32]) :
    Performs [wr 0x04 2, .completion] s (encoded s) :=
  performs_command 2 hb (exec_encode_of_valid valid)

/-- Settles O45: ENCODE leaves an idle block with the encoded operands, and the issue of DECODE leaves them as they are. -/
theorem decodeInvertsEncode : Obligations.DecodeInvertsEncode := by
  intro s hb valid
  have hlen := length_entropyBytes_of_valid s.ent valid
  have decoding := performs_command (s := { encoded s with agenda := [] }) 3 rfl
    (exec_decode_of_encoded (hlen.symm ▸ valid) rfl rfl)
  refine ⟨_, _, (performs_encode hb valid).runScript, rfl, decoding.runScript, rfl, fun i => ?_, ?_, rfl⟩
  · exact (entByte_packEntropy _ i).trans (getD_entropyBytes _ _ i)
  · simp [hlen]

/-! ### The image of ENCODE (R188) -/

/-- R185: the buffer and the length together hold one byte string. -/
theorem packEntropy_injective {e₁ e₂ : List Byte} (h₁ : e₁.length ≤ 32) (hlen : e₁.length = e₂.length)
    (h : packEntropy e₁ = packEntropy e₂) : e₁ = e₂ := by
  have read₁ := entropyBytes_packEntropy h₁
  rwa [h, hlen, entropyBytes_packEntropy (hlen ▸ h₁), eq_comm] at read₁

/-- R150: ENCODE of a byte string put into the buffer. -/
theorem exec_encode_of_packed (s : State) {e : List Byte} (he : e.length ∈ [16, 20, 24, 28, 32]) :
    exec .encode { s with ent := packEntropy e, entLen := BitVec.ofNat 32 e.length } =
      .next (completeOk (writeMnemonic e { s with ent := packEntropy e, entLen := BitVec.ofNat 32 e.length })) := by
  obtain ⟨-, -, -, -, -, hle, -⟩ := lengths_of_entropy he
  have len : (BitVec.ofNat 32 e.length).toNat = e.length := by rw [BitVec.toNat_ofNat, Nat.mod_eq_of_lt (by omega)]
  rw [exec_encode_of_valid (by rwa [len])]
  simp only [len, entropyBytes_packEntropy hle]

/-- R188: the groups of a stream are the indices exactly when the stream is theirs. -/
theorem indexBuffer_eq_iff {idx : Vector Word 24} {v n : Nat} (hn : n ≤ 24) (hv : v < 2 ^ (11 * n))
    (known : ∀ j : Fin 24, j.val < n → (idx[j]).toNat ≤ 2047) :
    (∀ j : Fin 24, j.val < n → (indexBuffer v n)[j] = idx[j]) ↔ v = joinGroups (indexList idx n) := by
  have hlen : (indexList idx n).length = n := by simp [hn]
  rw [← indexList_eq_iff]
  constructor
  · intro h
    rw [← h, joinGroups_indexBuffer hn hv]
  · rintro rfl
    have := indexBuffer_joinGroups (hlen.symm ▸ hn) (indexList_known_iff.2 known)
    rwa [hlen] at this

/-- R188: DECODE accepts known indices exactly when ENCODE of the entropy they hold writes their count and them. -/
theorem exec_decode_accepts_iff_encoded {s : State} {e : List Byte} (hn : s.wcount.toNat ∈ [12, 15, 18, 21, 24])
    (known : ∀ j : Fin 24, j.val < s.wcount.toNat → (s.idx[j]).toNat ≤ 2047)
    (he : e = candidateEntropy (joinGroups (indexList s.idx s.wcount.toNat)) s.wcount.toNat) :
    (∃ u, exec .decode s = .next u ∧ u.errCode = 0) ↔
      ∃ v, exec .encode { s with ent := packEntropy e, entLen := BitVec.ofNat 32 e.length } = .next v ∧
        v.errCode = 0 ∧ v.wcount = s.wcount ∧ ∀ j : Fin 24, j.val < s.wcount.toNat → v.idx[j] = s.idx[j] := by
  obtain ⟨hcs, hbits, hcs', hcount, hlen, hle⟩ := lengths_of_count hn
  have he' : e.length = 4 * s.wcount.toNat / 3 := by rw [he, length_candidateEntropy]
  have bound := packedStream_lt (e := e) (by omega)
  rw [he', hcs', ← hbits] at bound
  rw [exec_decode_accepts_iff hn known rfl, ← he, ← indexBuffer_eq_iff hle bound known,
    exec_encode_of_packed s (he' ▸ hlen)]
  simp [he', hcount]

/-- R188: two sequences DECODE accepts with the same ENT and ENT_LEN are the same. -/
theorem exec_decode_accepted_injective {s₁ s₂ u₁ u₂ : State}
    (run₁ : exec .decode s₁ = .next u₁) (run₂ : exec .decode s₂ = .next u₂)
    (ok₁ : u₁.errCode = 0) (ok₂ : u₂.errCode = 0) (sameEnt : u₁.ent = u₂.ent) (sameLen : u₁.entLen = u₂.entLen) :
    s₁.wcount = s₂.wcount ∧ ∀ j : Fin 24, j.val < s₁.wcount.toNat → s₁.idx[j] = s₂.idx[j] := by
  obtain ⟨hn₁, known₁, -, rfl⟩ := exec_decode_accepted run₁ ok₁
  obtain ⟨hn₂, known₂, -, rfl⟩ := exec_decode_accepted run₂ ok₂
  have image₁ := (exec_decode_accepts_iff hn₁ (indexList_known_iff.1 known₁) rfl).1 ⟨_, run₁, ok₁⟩
  have image₂ := (exec_decode_accepts_iff hn₂ (indexList_known_iff.1 known₂) rfl).1 ⟨_, run₂, ok₂⟩
  simp only [completeOk_ent, completeOk_entLen, writeEntropy_ent, writeEntropy_entLen, length_candidateEntropy]
    at sameEnt sameLen
  obtain ⟨-, -, -, hcount₁, -, hle₁⟩ := lengths_of_count hn₁
  obtain ⟨-, -, -, hcount₂, -, hle₂⟩ := lengths_of_count hn₂
  have sameCount : s₁.wcount = s₂.wcount := by bv_omega
  have sameEntropy := packEntropy_injective (by rw [length_candidateEntropy]; omega) (by simp [sameCount]) sameEnt
  refine ⟨sameCount, indexList_eq_iff.1 (joinGroups_injective (by simp) (by simp [sameCount]) known₁ ?_ ?_)⟩
  · rwa [sameCount]
  · rw [← image₁, sameEntropy, image₂, sameCount]

/-- Settles O46: a stream whose checksum matches is the packed stream of its entropy, so the entropy determines it. -/
theorem decodeAcceptsExactlyTheImage : Obligations.DecodeAcceptsExactlyTheImage :=
  ⟨fun _ _ => exec_decode_accepts_iff_encoded, fun _ _ _ _ => exec_decode_accepted_injective⟩

/-! ### One changed index (R189) -/

/-- R189: a stream whose entropy bits are those of an accepted one, and which is another stream, fails the checksum. -/
theorem checksum_ne_of_same_entropy {v w n : Nat} (hcs : n / 3 ≤ 8)
    (accepted : checksum (candidateEntropy v n) = foundChecksum v n)
    (entropy : w / 2 ^ (n / 3) = v / 2 ^ (n / 3)) (ne : w ≠ v) :
    checksum (candidateEntropy w n) ≠ foundChecksum w n := by
  have same : candidateEntropy w n = candidateEntropy v n := by rw [candidateEntropy_eq, candidateEntropy_eq, entropy]
  rw [same, accepted]
  exact fun h => ne (stream_ext hcs entropy h.symm)

/-- Known indices stay known when one of them becomes a known one. -/
theorem known_set {idx : Vector Word 24} {n : Nat} (known : ∀ k : Fin 24, k.val < n → (idx[k]).toNat ≤ 2047)
    (j : Fin 24) {v : Word} (hv : v.toNat ≤ 2047) :
    ∀ k : Fin 24, k.val < n → ((idx.set j v)[k]).toNat ≤ 2047 := by
  intro k hk
  rw [Fin.getElem_fin, Vector.getElem_set]
  split_ifs
  · exact hv
  · exact known k hk

section
variable {idx : Vector Word 24} {j : Fin 24} {v : Word} (hv : v.toNat ≤ 2047) (known : (idx[j]).toNat ≤ 2047)
include hv known

/-- R189: another last index makes another stream. -/
theorem joinGroups_set_last_ne (ne : v ≠ idx[j]) :
    joinGroups (indexList (idx.set j v) (j + 1)) ≠ joinGroups (indexList idx (j + 1)) := by
  rw [indexList_succ, indexList_succ, indexList_set_self, joinGroups_concat, joinGroups_concat, Fin.getElem_fin,
    Vector.getElem_set_self, Nat.mod_eq_of_lt (by omega), Nat.mod_eq_of_lt (by omega), ne_eq, Nat.add_left_cancel_iff,
    BitVec.toNat_inj]
  exact ne

/-- R189: a last index with the same bits above the checksum leaves the entropy bits of the stream as they are. -/
theorem joinGroups_set_last_div {c : Nat} (hc : c ≤ 11) (high : v >>> c = idx[j] >>> c) :
    joinGroups (indexList (idx.set j v) (j + 1)) / 2 ^ c = joinGroups (indexList idx (j + 1)) / 2 ^ c := by
  rw [indexList_succ, indexList_succ, indexList_set_self, Fin.getElem_fin, Vector.getElem_set_self,
    joinGroups_concat_div hv hc, joinGroups_concat_div known hc, high]

end

/-- Settles O47: the changed sequence has its first unknown index at `j`, or another stream with the same entropy. -/
theorem changedIndexRejected : Obligations.ChangedIndexRejected := by
  intro s t j v run ok hj
  obtain ⟨hn, known, agree, -⟩ := exec_decode_accepted run ok
  rw [indexList_known_iff] at known
  constructor
  · intro unknown
    refine exec_decode_of_unknown (s := { s with idx := s.idx.set j v }) hn hj (by simpa using unknown) fun k hk => ?_
    simpa [Nat.ne_of_gt hk] using known k (by omega)
  · intro hv ne last high
    obtain ⟨hcs, -⟩ := lengths_of_count hn
    have differ := joinGroups_set_last_ne hv (known j hj) ne
    have entropy := joinGroups_set_last_div hv (known j hj) (by omega) high
    rw [last] at differ entropy
    exact ⟨_, exec_decode_of_mismatch (s := { s with idx := s.idx.set j v }) hn (known_set known j hv) rfl
      (checksum_ne_of_same_entropy hcs agree entropy differ), rfl⟩

end Sys2Proof.Machine
end

section
/-! ## HASH, the SHA-256 primitive (43_hash.md)

A message of at most 55 bytes is padded to one block: itself, the byte 0x80, zeros up to byte 55, the length in bits as a
number of eight bytes. The schedule of a block extends it word by word, so its `t`-th word is the recurrence over the `t` words
before it. HASH itself writes what `sha256` answers, or reports the length. -/

namespace Sys2Proof.Machine

/-! ### Padding (R213) -/

/-- R213: the length in bits is a number of eight bytes. -/
theorem shaLengthBytes_eq_bytesBE (n : Nat) : shaLengthBytes n = bytesBE 8 (8 * n) := rfl

theorem length_shaPad (m : List Byte) : (shaPad m).length = m.length + 1 + (119 - m.length % 64) % 64 + 8 := by
  simp [shaPad, shaLengthBytes_eq_bytesBE, Nat.add_assoc, Nat.add_comm 1]

/-- R213: padding appends to the message. -/
theorem getD_shaPad_of_lt {m : List Byte} {i : Nat} (hi : i < m.length) : (shaPad m).getD i 0 = m.getD i 0 := by
  rw [shaPad, List.append_assoc, List.append_assoc, List.getD_append _ _ _ _ hi]

/-- R213: the 1 bit and seven 0 bits after the message. -/
theorem getD_shaPad_length (m : List Byte) : (shaPad m).getD m.length 0 = 0x80 := by
  rw [shaPad, List.append_assoc, List.append_assoc, List.getD_append_right _ _ _ _ le_rfl, Nat.sub_self,
    List.singleton_append, List.getD_cons_zero]

/-- Byte `q` of the `len` bytes of a number (R180). -/
theorem toNat_getD_bytesBE (x : Nat) {len q : Nat} (hq : q < len) :
    ((bytesBE len x).getD q 0).toNat = x / 2 ^ (8 * (len - 1 - q)) % 2 ^ 8 := by
  rw [List.getD_eq_getElem _ _ (by simpa using hq)]
  simp [bytesBE, Nat.shiftRight_eq_div_pow]

section
variable {m : List Byte} (short : m.length ≤ 55)
include short

/-- R213: the one block of a message of at most 55 bytes. -/
theorem shaPad_of_short :
    shaPad m = m ++ 0x80 :: (List.replicate (55 - m.length) 0 ++ bytesBE 8 (8 * m.length)) := by
  have zeros : (119 - m.length % 64) % 64 = 55 - m.length := by omega
  simp [shaPad, zeros, shaLengthBytes_eq_bytesBE]

theorem length_shaPad_of_short : (shaPad m).length = 64 := by
  rw [length_shaPad]; omega

/-- R213: the eight bytes at the end of the block. -/
theorem drop_shaPad_of_short : (shaPad m).drop 56 = bytesBE 8 (8 * m.length) := by
  have front : (m ++ 0x80 :: List.replicate (55 - m.length) 0).length = 56 := by simp; omega
  rw [shaPad_of_short short, ← List.cons_append, ← List.append_assoc, List.drop_left' front]

/-- R213: between the marker and the bit length there are zeros. -/
theorem getD_shaPad_zero {i : Nat} (above : m.length < i) (below : i < 56) : (shaPad m).getD i 0 = 0 := by
  obtain ⟨k, rfl⟩ := Nat.exists_eq_add_of_lt above
  have hk : k < 55 - m.length := by omega
  rw [shaPad_of_short short, List.getD_append_right _ _ _ _ (by omega), show m.length + k + 1 - m.length = k + 1 by omega,
    List.getD_cons_succ, List.getD_append _ _ _ _ (by simpa using hk), List.getD_replicate _ hk]

/-- R213: the block ends in the length in bits, big-endian. -/
theorem intBE_drop_shaPad : intBE ((shaPad m).drop 56) = 8 * m.length := by
  rw [drop_shaPad_of_short short, intBE_bytesBE]
  omega

/-- R213: byte 56 + q of the block is byte q of the length in bits. -/
theorem toNat_getD_shaPad_bitLength (q : Nat) (hq : q < 8) :
    ((shaPad m).getD (56 + q) 0).toNat = 8 * m.length / 2 ^ (8 * (7 - q)) % 2 ^ 8 := by
  rw [← toNat_getD_bytesBE _ hq, ← drop_shaPad_of_short short]
  simp [List.getD_eq_getElem?_getD]

end

/-- Settles O33: the length of the padding for every message, its parts for one of at most 55 bytes. -/
theorem paddingFollowsTheStandard : Obligations.PaddingFollowsTheStandard := by
  intro m
  refine ⟨by rw [length_shaPad]; omega, by rw [length_shaPad]; omega, fun short => ?_, fun inBuffer => ?_⟩
  · exact ⟨length_shaPad_of_short short, fun _ => getD_shaPad_of_lt, getD_shaPad_length m,
      fun _ => getD_shaPad_zero short, intBE_drop_shaPad short⟩
  · have short : m.length ≤ 55 := by omega
    have high : ((shaPad m).getD 62 0).toNat = 8 * m.length / 256 % 256 :=
      toNat_getD_shaPad_bitLength short 6 (by decide)
    have low : ((shaPad m).getD 63 0).toNat = 8 * m.length / 1 % 256 :=
      toNat_getD_shaPad_bitLength short 7 (by decide)
    exact ⟨by omega, by omega⟩

/-! ### The message schedule (R218) -/

@[simp] theorem length_shaExtend (k : Nat) (w : List Word) : (shaExtend k w).length = w.length + k := by
  induction k generalizing w with
  | zero => rfl
  | succ k ih => rw [shaExtend, ih, List.length_append, List.length_singleton]; omega

/-- R218: later words leave the words before them as they are. -/
theorem shaExtend_eq_append (k : Nat) (w : List Word) : ∃ later, shaExtend k w = w ++ later := by
  induction k generalizing w with
  | zero => exact ⟨[], (List.append_nil w).symm⟩
  | succ k ih =>
    obtain ⟨later, extended⟩ := ih (w ++ [shaNextWord w])
    exact ⟨shaNextWord w :: later, by rw [shaExtend, extended, List.append_assoc, List.singleton_append]⟩

theorem take_shaExtend (k : Nat) (w : List Word) : (shaExtend k w).take w.length = w := by
  obtain ⟨later, extended⟩ := shaExtend_eq_append k w
  rw [extended, List.take_left]

theorem getD_shaExtend_of_lt (k : Nat) {w : List Word} {t : Nat} (ht : t < w.length) :
    (shaExtend k w).getD t 0 = w.getD t 0 := by
  obtain ⟨later, extended⟩ := shaExtend_eq_append k w
  rw [extended, List.getD_append _ _ _ _ ht]

/-- R218: each word that was added is the next word after those before it. -/
theorem getD_shaExtend_of_le {k : Nat} {w : List Word} {t : Nat} (hw : w.length ≤ t) (ht : t < w.length + k) :
    (shaExtend k w).getD t 0 = shaNextWord ((shaExtend k w).take t) := by
  induction k generalizing w with
  | zero => omega
  | succ k ih =>
    obtain rfl | later := Nat.eq_or_lt_of_le hw
    · rw [take_shaExtend, shaExtend, getD_shaExtend_of_lt k (by simp), List.getD_append_right _ _ _ _ le_rfl, Nat.sub_self,
        List.getD_cons_zero]
    · exact ih (by simpa using later) (by simp; omega)

/-- R218: the next word after the first `t` words of `w`. -/
theorem shaNextWord_take {w : List Word} {t : Nat} (first : 16 ≤ t) (ht : t ≤ w.length) :
    shaNextWord (w.take t) = smallSigma1 (w.getD (t - 2) 0) + w.getD (t - 7) 0
      + smallSigma0 (w.getD (t - 15) 0) + w.getD (t - 16) 0 := by
  have same : ∀ d, 0 < d → (w.take t).getD (t - d) 0 = w.getD (t - d) 0 := by
    intro d hd
    simp [List.getD_eq_getElem?_getD, List.getElem?_take_of_lt (show t - d < t by omega)]
  rw [shaNextWord, List.length_take_of_le ht, same 2 (by decide), same 7 (by decide), same 15 (by decide),
    same 16 (by decide)]

/-- Settles O34: the block's own words are kept, and each word added to them is the recurrence. -/
theorem scheduleFollowsTheRecurrence : Obligations.ScheduleFollowsTheRecurrence := by
  intro block hb
  have hlen : (shaSchedule block).length = 64 := by rw [shaSchedule, length_shaExtend, hb]
  refine ⟨hlen, fun t ht => getD_shaExtend_of_lt 48 (hb ▸ ht), fun t first ht => ?_⟩
  rw [← shaNextWord_take first (by omega)]
  exact getD_shaExtend_of_le (by omega) (by omega)

/-! ### Blocks (R214, R221) -/

/-- R214: four bytes make a word. -/
theorem length_wordsOfBytes : ∀ e : List Byte, (wordsOfBytes e).length = e.length / 4
  | b0 :: b1 :: b2 :: b3 :: rest => by
    simp only [wordsOfBytes, List.length_cons, length_wordsOfBytes rest]; omega
  | [] | [_] | [_, _] | [_, _, _] => by simp [wordsOfBytes]

/-- R221: a padded message of 16 words is compressed from the initial hash value, and that is all. -/
theorem shaHash_of_one_block {m : List Byte} (h : (wordsOfBytes (shaPad m)).length = 16) :
    shaHash m = shaBlock shaInitial (wordsOfBytes (shaPad m)) := by
  simp only [shaHash, h, Nat.div_self, Nat.succ_pos, shaBlocks]
  rw [List.take_of_length_le (by omega)]

/-- Settles O35: the 64 bytes of the padded message are 16 words. -/
theorem shortMessageIsOneBlock : Obligations.ShortMessageIsOneBlock := by
  intro m short
  have words : (wordsOfBytes (shaPad m)).length = 16 := by rw [length_wordsOfBytes, length_shaPad_of_short short]
  exact ⟨words, shaHash_of_one_block words⟩

/-! ### The command (R210) -/

/-- R210: HASH on a length within the buffer writes the digest of the entropy value. -/
theorem exec_hash_of_le {s : State} (h : s.entLen.toNat ≤ 32) :
    exec .hash s =
      .next (completeOk { s with digest := digestWords (sha256 (entropyBytes s.ent s.entLen.toNat)) }) :=
  if_pos h

/-- R210: HASH on a length beyond the buffer reports it. -/
theorem exec_hash_of_gt {s : State} (h : 32 < s.entLen.toNat) :
    exec .hash s = .next (raiseError .hashLength s.entLen s) :=
  if_neg (Nat.not_le.2 h)

/-- R106: DIGEST[k] is four bytes of the digest. -/
theorem getElem_digestWords (d : Vector Byte 32) (k : Fin 8) :
    (digestWords d)[k] = wordOfBytes d[4 * k.val] d[4 * k.val + 1] d[4 * k.val + 2] d[4 * k.val + 3] := by
  rw [Fin.getElem_fin, digestWords, Vector.getElem_ofFn]

/-- Settles O48: the bytes below ENT_LEN are the entropy value, of which HASH writes the digest. -/
theorem hashWritesDigestWords : Obligations.HashWritesDigestWords := by
  rintro s _ rfl
  rw [← entropyBytes_eq_filterMap]
  exact ⟨fun h => ⟨_, exec_hash_of_le h, rfl, getElem_digestWords _⟩, exec_hash_of_gt⟩

end Sys2Proof.Machine
end

section
/-! ## Control: issue, completion, CLEAR, the illegal words, and what a result depends on (44_control.md)

A completion is told by two things, the error it reports, if any, and the result its command writes otherwise. Each is made of
the operands of the command's row alone. -/

namespace Sys2Proof.Machine

/-! ### What a completion depends on (R257) -/

/-- R103, R301: the error a command reports on the state, with its ERR_INFO; `none` where it succeeds. -/
def completionError (i : Instr) (s : State) : Option (ErrorKind × Word) :=
  match i with
  | .validate | .encode => if validEntLen s.entLen then none else some (.invalidEntropyLength, s.entLen)
  | .decode =>
    let indices := indexList s.idx s.wcount.toNat
    let expected := checksum (candidateEntropy (joinGroups indices) s.wcount.toNat)
    let found := foundChecksum (joinGroups indices) s.wcount.toNat
    if validWordCount s.wcount then
      match firstUnknown indices with
      | some j => some (.unknownWord, BitVec.ofNat 32 j)
      | none => if expected = found then none else some (.checksumMismatch, mismatchInfo expected found)
    else some (.invalidWordCount, s.wcount)
  | .hash => if s.entLen.toNat ≤ 32 then none else some (.hashLength, s.entLen)
  | .clear => none
  | .illegal _ => some (.illegalCommand, s.pend)

/-- The end of a completion, by the error it reports: an error on `s`, or success with the result of the command. -/
def completionEnd (i : Instr) (s : State) : Option (ErrorKind × Word) → State
  | none => completeOk (commandResult i s)
  | some (e, info) => raiseError e info s

/-- The meaning of every command by its error and its result. -/
theorem exec_eq_completionEnd (i : Instr) (s : State) :
    exec i s = .next (completionEnd i s (completionError i s)) := by
  cases i with
  | validate =>
    obtain ⟨valid, run⟩ | ⟨invalid, run⟩ := execValidate_cases s
    · simp [exec, run, completionError, valid, completionEnd, commandResult]
    · simp [exec, run, completionError, invalid, completionEnd]
  | encode =>
    obtain ⟨valid, run⟩ | ⟨invalid, run⟩ := execEncode_cases s
    · simp [exec, run, completionError, valid, completionEnd, commandResult]
    · simp [exec, run, completionError, invalid, completionEnd]
  | decode =>
    obtain ⟨invalid, run⟩ | ⟨valid, j, unknown, run⟩ | ⟨valid, known, run⟩ := execDecode_cases s
    · simp [exec, run, completionError, invalid, completionEnd]
    · simp [exec, run, completionError, valid, unknown, completionEnd]
    · obtain ⟨agree, ends⟩ | ⟨differ, ends⟩ :=
        decodeStream_cases (joinGroups (indexList s.idx s.wcount.toNat)) s.wcount.toNat s
      · simp [exec, run, ends, completionError, valid, known, agree, completionEnd, commandResult]
      · simp [exec, run, ends, completionError, valid, known, differ, completionEnd]
  | hash =>
    obtain ⟨short, run⟩ | ⟨long, run⟩ := execHash_cases s
    · simp [exec, run, completionError, short, completionEnd, commandResult]
    · simp [exec, run, completionError, Nat.not_le.2 long, completionEnd]
  | clear | illegal => rfl

/-- R257: the error is made of the operands. -/
theorem completionError_congr {i : Instr} {s₁ s₂ : State} (h : OperandsAgree i s₁ s₂) :
    completionError i s₁ = completionError i s₂ := by
  cases i with
  | validate => simp only [completionError, show s₁.entLen = s₂.entLen from h]
  | encode | hash =>
    obtain ⟨sameLen, -⟩ := h
    simp only [completionError, sameLen]
  | decode =>
    obtain ⟨sameCount, sameIdx⟩ := h
    rw [sameCount] at sameIdx
    simp only [completionError, sameCount, indexList_congr sameIdx]
  | clear => rfl
  | illegal => simp only [completionError, show s₁.pend = s₂.pend from h]

/-- R257: the result is made of the operands. -/
theorem commandResult_congr {i : Instr} {s₁ s₂ : State} (h : OperandsAgree i s₁ s₂) :
    ResultRegistersAgree i (commandResult i s₁) (commandResult i s₂) := by
  cases i with
  | validate | illegal => trivial
  | encode | hash =>
    obtain ⟨sameLen, sameBytes⟩ := h
    rw [sameLen] at sameBytes
    simp [ResultRegistersAgree, commandResult, sameLen, entropyBytes_congr sameBytes]
  | decode =>
    obtain ⟨sameCount, sameIdx⟩ := h
    rw [sameCount] at sameIdx
    simp [ResultRegistersAgree, commandResult, sameCount, indexList_congr sameIdx]
  | clear => simp [ResultRegistersAgree, commandResult]

/-- R303: `complete_ok()` writes no result register. -/
theorem resultRegistersAgree_completeOk {i : Instr} {t₁ t₂ : State} (h : ResultRegistersAgree i t₁ t₂) :
    ResultRegistersAgree i (completeOk t₁) (completeOk t₂) := by
  cases i <;> exact h

/-- Settles O54: the two completions report the same error, or both write the same result. -/
theorem resultsDependOnOperandsOnly : Obligations.ResultsDependOnOperandsOnly := by
  intro i s₁ s₂ t₁ t₂ agree run₁ run₂
  rw [exec_eq_completionEnd] at run₁ run₂
  rw [completionError_congr agree] at run₁
  cases run₁
  cases run₂
  cases completionError i s₂ with
  | none => exact ⟨rfl, rfl, fun _ => resultRegistersAgree_completeOk (commandResult_congr agree)⟩
  | some error => exact ⟨rfl, rfl, fun ok => absurd ok (raiseError_failed _ _ _)⟩

/-! ### Issue and completion (R250, R252) -/

/-- R350: with no event left a busy block completes. -/
theorem step_of_empty_of_busy {s : State} (ha : s.agenda = []) (hb : s.statusBusy = true) :
    step s = exec (decode s.pend) s := by
  simp [step, ha, completeIfBusy, hb, complete]

/-- R47: with no event left an idle block waits. -/
theorem step_of_empty_of_idle {s : State} (ha : s.agenda = []) (hb : s.statusBusy = false) : step s = .next s := by
  simp [step, ha, completeIfBusy, hb]

/-- R252: a completion is not enabled while the block is idle. -/
theorem step_completion_of_idle {s : State} {rest : List Event} (ha : s.agenda = .completion :: rest)
    (hb : s.statusBusy = false) : step s = .next { s with agenda := rest } := by
  simp [step, ha, completeIfBusy, hb]

/-- Settles O3: the two places of a completion, by BUSY. -/
theorem stepRunsDecodedPend : Obligations.StepRunsDecodedPend := fun _ =>
  ⟨fun hb ha => step_of_empty_of_busy ha hb, fun hb _ ha => step_completion ha hb,
    fun hb ha => step_of_empty_of_idle ha hb, fun hb _ ha => step_completion_of_idle ha hb⟩

/-- R344: the step of a write that the busy block drops. -/
theorem step_wr_of_dropped {s : State} {off : BitVec 8} {v : Word} {rest : List Event} (h : s.agenda = wr off v :: rest)
    (ha : off.toNat % 4 = 0) (hb : s.statusBusy = true) (hd : droppedWhileBusy (regAt off) = true) :
    step s = .next (respond .okay 0 (setOverrun { s with agenda := rest })) := by
  simp [step_wr h ha, writeRegister, hb, hd]

/-- Settles O10: the idle block issues the word, and the busy block drops the write. -/
theorem commandWriteIssues : Obligations.CommandWriteIssues := fun _ _ _ head =>
  ⟨fun idle => step_wr_cmd_of_idle head idle, fun busy => step_wr_of_dropped head rfl busy rfl⟩

/-! ### CLEAR (R254) -/

/-- R254: after CLEAR every register but CTRL and STATUS reads as after reset. -/
theorem registerValue_cleared (s : State) {r : Reg} (hc : r ≠ .ctrl) (hs : r ≠ .status) :
    registerValue r (completeOk (scrubBuffers s)) = registerValue r State.reset := by
  cases r with
  | ctrl => exact absurd rfl hc
  | status => exact absurd rfl hs
  | cmd | errCode | errInfo | entLen | wcount | csum | ent | digest | idx | reserved => rfl

/-- Settles O49: CLEAR completes with scrubbed buffers, which are those of the reset state. -/
theorem clearScrubsEveryBuffer : Obligations.ClearScrubsEveryBuffer := by
  intro s
  refine ⟨_, execClear_eq s, rfl, fun k => by simp, fun j => by simp, fun off ha notCtrl notStatus => ?_⟩
  apply registerValue_cleared
  · exact fun hr => notCtrl (congrArg BitVec.toNat ((regAt_eq_ctrl off ha).1 hr))
  · exact fun hr => notStatus (congrArg BitVec.toNat ((regAt_eq_status off ha).1 hr))

/-! ### The illegal words (R255) -/

/-- R102, R255: a word with the fields of no command decodes as the default row. -/
theorem decode_of_illegal_fields {v : Word}
    (h : v.extractLsb' 4 28 ≠ 0 ∨ (v.extractLsb' 0 4).toNat = 0 ∨ 6 ≤ (v.extractLsb' 0 4).toNat) :
    decode v = .illegal v := by
  obtain ⟨-, -, -, -, -, illegal, -⟩ := exactlyFiveWordsAreCommands v
  have op_le : (v.extractLsb' 0 4).toNat ≤ 15 := Nat.le_of_lt_succ (v.extractLsb' 0 4).isLt
  exact illegal.2 (h.imp_right (Or.imp_right fun op_ge => ⟨op_ge, op_le⟩))

/-- Settles O50: the completion decodes PEND as the default row, whose meaning reports PEND. -/
theorem illegalWordReportsItself : Obligations.IllegalWordReportsItself := by
  refine ⟨fun s _ => execIllegal_eq s, fun s rest busy head fields => ?_⟩
  rw [step_completion head busy, decode_of_illegal_fields fields]
  exact execIllegal_eq _

end Sys2Proof.Machine
end

section
/-! ## The host-side word layer (48_host_words.md)

Software over the block: what the lookup answers, what a script leaves the block with, and then the two functions. The
words host_encode returns name the indices it leaves in IDX, so host_decode loads those same indices again. -/

namespace Sys2Proof.Machine

/-! ### The lookup of words (R271, R273) -/

/-- R273: the lookup stops at the first word that has no index, and reports its position. -/
theorem lookupWords_of_lowest_unknown {W : Wordlist} {words : List String} {p : Nat} (hp : p < words.length)
    (unknown : ∀ i, W.word i ≠ words.getD p "") (lower : ∀ q, q < p → ∃ i, W.word i = words.getD q "") (b : Nat) :
    lookupWords W words b = .error (.unknownWord (words.getD p "") (b + p)) := by
  induction words generalizing p b with
  | nil => exact absurd hp (Nat.not_lt_zero p)
  | cons w ws ih =>
    cases p with
    | zero =>
      have noIndex : W.indexOf w = none := indexOf_eq_none unknown
      simp [lookupWords, noIndex]
    | succ p =>
      obtain ⟨i, rfl⟩ : ∃ i, W.word i = w := lower 0 p.succ_pos
      have later := ih (Nat.lt_of_succ_lt_succ hp) unknown (fun q hq => lower (q + 1) (Nat.succ_lt_succ hq)) (b + 1)
      simp [lookupWords, indexOf_word, later, Nat.add_assoc, Nat.add_comm 1]

/-- R270: a known index is the number of a word of W. -/
theorem ofNat_index {i : Word} (h : i.toNat ≤ 2047) : BitVec.ofNat 32 (Fin.ofNat 2048 i.toNat).val = i := by
  rw [Fin.val_ofNat, Nat.mod_eq_of_lt (Nat.lt_succ_of_le h), BitVec.ofNat_toNat, BitVec.setWidth_eq]

/-- R271: the words that name known indices are found again as those indices. -/
theorem lookupWords_mnemonicWords (W : Wordlist) {t : State}
    (known : ∀ i ∈ indexList t.idx t.wcount.toNat, i.toNat ≤ 2047) (b : Nat) :
    lookupWords W (mnemonicWords W t) b = .ok (indexList t.idx t.wcount.toNat) := by
  have found := lookupWords_known W ((indexList t.idx t.wcount.toNat).map fun i => Fin.ofNat 2048 i.toNat) b
  rw [List.map_map, List.map_map] at found
  refine found.trans (congrArg Except.ok ((List.map_congr_left fun i hi => ?_).trans (List.map_id _)))
  exact ofNat_index (known i hi)

/-- R273: host_decode reports what the lookup fails with, and the block is not called. -/
theorem hostDecode_of_lookup_error {W : Wordlist} {words : List String} {error : HostError} (polls : Nat) (s : State)
    (hn : words.length ∈ [12, 15, 18, 21, 24]) (h : lookupWords W words 0 = .error error) :
    hostDecode W polls words s = .next (.error error, s) := by
  rw [hostDecode, if_pos hn, h]

/-- Settles O56: the count is checked first, and the lookup, which needs no block, stops at the lowest unknown word. -/
theorem hostDecodeRejectsInOrder : Obligations.HostDecodeRejectsInOrder := by
  intro W polls words s
  refine ⟨fun hn => if_neg hn, fun hn p hp unknown lower => ?_⟩
  have failed := lookupWords_of_lowest_unknown hp unknown lower 0
  rw [Nat.zero_add] at failed
  exact hostDecode_of_lookup_error polls s hn failed

/-! ### host_encode (R272) -/

/-- R272: the operand writes put the length into ENT_LEN, and the bytes into ENT if the buffer holds them. -/
theorem performs_hostEncodeOperands {s : State} {e : List Byte} (he : e.length < 2 ^ 32) (hb : s.statusBusy = false) :
    ∃ ent r, Performs (hostEncodeOperands e) s
        { s with entLen := BitVec.ofNat 32 e.length, ent := ent, response := r } ∧
      (e.length ≤ 32 → entropyBytes ent e.length = e) := by
  by_cases fits : e.length ≤ 32
  · obtain ⟨ent, r, loaded, bytes⟩ := performs_loadEnt e fits hb
    refine ⟨ent, r, by rwa [hostEncodeOperands, if_pos fits], fun _ => ?_⟩
    rw [← entropyBytes_congr fun i hi => (entByte_packEntropy e i).trans (bytes i hi).symm, entropyBytes_packEntropy fits]
  · have written := performs_wr (s := s) (off := 0x14) (BitVec.ofNat 32 e.length) (by decide) hb
    refine ⟨s.ent, some ⟨.okay, 0⟩, ?_, fun h => absurd h fits⟩
    rwa [hostEncodeOperands, if_neg fits, Nat.min_eq_left (show e.length ≤ 2 ^ 32 - 1 by omega)]

/-- R8: a length that 32 bits hold is what ENT_LEN holds after it is written. -/
theorem toNat_entropyLength {e : List Byte} (h : e.length < 2 ^ 32) : (BitVec.ofNat 32 e.length).toNat = e.length :=
  Nat.mod_eq_of_lt h

/-- R272: host_encode reads its answer off the state that ENCODE of the operands leaves. -/
theorem hostEncode_of_exec (W : Wordlist) (polls : Nat) {e : List Byte} {s loaded u : State}
    (operands : Performs (hostEncodeOperands e) s loaded) (hb : loaded.statusBusy = false)
    (ran : exec .encode (issue (encode .encode) loaded) = .next u) :
    ∃ t, hostEncode W polls e s = .next (hostEncodeAnswer W t, t) ∧
      t = { u with agenda := [], response := t.response } := by
  obtain ⟨r, polled⟩ := performs_run (encode .encode) polls hb ran
  exact ⟨_, hostEncode_of_run (operands.append polled).runScript rfl, rfl⟩

/-- R272: the answer, by whether ENCODE succeeded. -/
theorem hostEncodeAnswer_of_ok (W : Wordlist) {t : State} (h : t.errCode = 0) :
    hostEncodeAnswer W t = .ok (mnemonicWords W t) :=
  if_pos h

theorem hostEncodeAnswer_of_failed (W : Wordlist) {t : State} (h : t.errCode ≠ 0) :
    hostEncodeAnswer W t = .error (.invalidEntropyLength t.errInfo) :=
  if_neg h

/-- Settles O57: the block's length check rejects the length that the operand writes left in ENT_LEN. -/
theorem hostEncodeRejectsLength : Obligations.HostEncodeRejectsLength := by
  intro W polls e s hb invalid short
  obtain ⟨ent, r, operands, -⟩ := performs_hostEncodeOperands short hb
  rw [← toNat_entropyLength short] at invalid
  obtain ⟨t, answered, ht⟩ := hostEncode_of_exec W polls operands hb (exec_encode_of_invalid invalid)
  have answer : hostEncodeAnswer W t = .error (.invalidEntropyLength (BitVec.ofNat 32 e.length)) := by
    rw [hostEncodeAnswer_of_failed W (ht ▸ errorCode_ne_zero .invalidEntropyLength), ht]; rfl
  exact ⟨t, answer ▸ answered⟩

/-- R272: of a permitted length host_encode returns the words of the mnemonic that ENCODE wrote. -/
theorem hostEncode_of_valid (W : Wordlist) (polls : Nat) {e : List Byte} {s : State} (hb : s.statusBusy = false)
    (valid : e.length ∈ [16, 20, 24, 28, 32]) :
    ∃ t, hostEncode W polls e s = .next (.ok (mnemonicWords W t), t) ∧ t.statusBusy = false ∧
      t.idx = indexBuffer (packedStream e) (3 * e.length / 4) ∧ t.wcount = BitVec.ofNat 32 (3 * e.length / 4) := by
  obtain ⟨-, -, -, -, -, fits, -⟩ := lengths_of_entropy valid
  have hlen := toNat_entropyLength (e := e) (by omega)
  obtain ⟨ent, r, operands, bytes⟩ := performs_hostEncodeOperands (e := e) (by omega) hb
  obtain ⟨t, answered, ht⟩ := hostEncode_of_exec W polls operands hb (exec_encode_of_valid (hlen.symm ▸ valid))
  have answer : hostEncodeAnswer W t = .ok (mnemonicWords W t) := hostEncodeAnswer_of_ok W (ht ▸ rfl)
  refine ⟨t, answer ▸ answered, ?_⟩
  rw [ht]
  simp [hlen, bytes fits]

/-! ### host_decode of what host_encode returned (R273, R274) -/

/-- R113: loading the indices that the block already holds, with their count, changes nothing but the response. -/
theorem performs_loadIdx_self {t : State} (hn : t.wcount.toNat ≤ 24) (hb : t.statusBusy = false) :
    ∃ r, Performs (loadIdx (indexList t.idx t.wcount.toNat)) t { t with response := r } := by
  have hlen : (indexList t.idx t.wcount.toNat).length = t.wcount.toNat := by simp [hn]
  obtain ⟨idx, r, loaded, indices⟩ := performs_loadIdx (indexList t.idx t.wcount.toNat) (hlen.symm ▸ hn) hb
  obtain rfl : idx = t.idx := by
    refine Vector.ext fun j hj => (indices ⟨j, hj⟩).trans ?_
    split_ifs with below
    · rw [List.getD_eq_getElem _ _ below, getElem_indexList]
    · rfl
  rw [hlen, BitVec.ofNat_toNat, BitVec.setWidth_eq] at loaded
  exact ⟨r, loaded⟩

/-- R273: a successful DECODE of `e` is answered with `e`. -/
theorem hostDecodeAnswer_writeEntropy {e : List Byte} (he : e.length ≤ 32) (found : Byte) (t : State) :
    hostDecodeAnswer (completeOk (writeEntropy e found t)) = .ok e := by
  simp [hostDecodeAnswer, toNat_entropyLength (e := e) (by omega), entropyBytes_packEntropy he]

section
variable {e : List Byte} {t : State} (valid : e.length ∈ [16, 20, 24, 28, 32])
  (hcount : t.wcount = BitVec.ofNat 32 (3 * e.length / 4))
include valid hcount

/-- R151: the count that ENCODE wrote for `e`, as a number. -/
theorem toNat_wcount_of_encoded : t.wcount.toNat = 3 * e.length / 4 := by
  obtain ⟨-, -, -, -, hn, -⟩ := lengths_of_entropy valid
  rw [hcount, BitVec.toNat_ofNat, Nat.mod_eq_of_lt (by omega)]

/-- R272: host_encode reads that many words. -/
theorem length_mnemonicWords_of_encoded (W : Wordlist) : (mnemonicWords W t).length = 3 * e.length / 4 := by
  obtain ⟨-, -, -, -, hn, -⟩ := lengths_of_entropy valid
  simp [mnemonicWords, toNat_wcount_of_encoded valid hcount, hn]

/-- R274: host_decode of the words that name the mnemonic of `e`, on the idle block that holds it. -/
theorem hostDecode_of_encoded (W : Wordlist) (polls : Nat) (hb : t.statusBusy = false)
    (hidx : t.idx = indexBuffer (packedStream e) (3 * e.length / 4)) :
    ∃ u, hostDecode W polls (mnemonicWords W t) t = .next (.ok e, u) := by
  obtain ⟨-, -, -, -, hn, fits, count⟩ := lengths_of_entropy valid
  have known := indexList_known_iff (n := t.wcount.toNat).2 fun j _ => hidx ▸ indexBuffer_le (packedStream e) _ j
  obtain ⟨r, loaded⟩ := performs_loadIdx_self (toNat_wcount_of_encoded valid hcount ▸ hn) hb
  obtain ⟨r', ran⟩ := performs_run (s := { t with response := r }) (encode .decode) polls hb
    (exec_decode_of_encoded valid hidx hcount)
  exact ⟨_, hostDecode_of_run (length_mnemonicWords_of_encoded valid hcount W ▸ count)
    (lookupWords_mnemonicWords W known 0) (loaded.append ran).runScript (hostDecodeAnswer_writeEntropy fits _ _)⟩

end

/-- Settles O58: host_encode leaves the block with the mnemonic whose words it returns. -/
theorem wordLevelRoundTrip : Obligations.WordLevelRoundTrip := by
  intro W polls₁ polls₂ e s hb valid
  obtain ⟨t, encoded, idle, hidx, hcount⟩ := hostEncode_of_valid W polls₁ hb valid
  obtain ⟨u, decoded⟩ := hostDecode_of_encoded valid hcount W polls₂ idle hidx
  exact ⟨_, t, u, encoded, length_mnemonicWords_of_encoded valid hcount W, decoded⟩

end Sys2Proof.Machine
end

section
/-! ## Error results and the order of events (60_exceptions.md)

An error is a completion like any other: it ends the command, on the old state, with the error result and the flags. What each
code says of the operands is read off the checks of the command that raises it. -/

namespace Sys2Proof.Machine

/-! ### Nothing stops the block (R300, R73) -/

/-- R300: every command answers a next state, in every state. -/
theorem exists_exec_eq_next (i : Instr) (s : State) : ∃ t, exec i s = .next t :=
  ⟨_, exec_eq_completionEnd i s⟩

theorem exists_completeIfBusy_eq_next (s : State) : ∃ t, completeIfBusy s = .next t := by
  unfold completeIfBusy
  split
  · exact exists_exec_eq_next (decode s.pend) s
  · exact ⟨s, rfl⟩

/-- R300, R73: every event, and an empty agenda, lead to a next state. -/
theorem exists_step_eq_next (s : State) : ∃ t, step s = .next t := by
  unfold step
  split
  · exact exists_completeIfBusy_eq_next s
  next rest _ => exact exists_completeIfBusy_eq_next { s with agenda := rest }
  · exact ⟨_, rfl⟩
  · exact ⟨_, rfl⟩

/-- Settles O5: a completion is total because every command is, and a request and a reset are functions of the state. -/
theorem everyStepAnswersNext : Obligations.EveryStepAnswersNext :=
  ⟨exists_step_eq_next, exists_exec_eq_next⟩

/-! ### A failed command (R304) -/

/-- Settles O52: a result that is written comes with code 0, and an error is raised on the old state. -/
theorem failedCommandChangesNothingElse : Obligations.FailedCommandChangesNothingElse :=
  fun _ _ => exec_induction (fun failed => absurd rfl failed) fun _ _ _ => rfl

/-! ### The causes of the errors (R301, R302) -/

/-- R302: ERR_INFO of a checksum mismatch as four bytes, two zeros first. -/
theorem mismatchInfo_eq_wordOfBytes (expected found : Byte) :
    mismatchInfo expected found = wordOfBytes 0 0 expected found := by
  simp [mismatchInfo, wordOfBytes]

/-- R302: its fields: the expected checksum in bits 15:8, the found one in bits 7:0, and zeros. -/
theorem extractLsb'_mismatchInfo (expected found : Byte) :
    (mismatchInfo expected found).extractLsb' 8 8 = expected ∧ (mismatchInfo expected found).extractLsb' 0 8 = found ∧
      (mismatchInfo expected found).extractLsb' 16 16 = 0 := by
  rw [mismatchInfo_eq_wordOfBytes]
  refine ⟨(byteOfWord_eq_extractLsb' _ 2).symm.trans (byteOfWord_wordOfBytes _ _ _ _ (by decide)),
    (byteOfWord_eq_extractLsb' _ 3).symm.trans (byteOfWord_wordOfBytes _ _ _ _ (by decide)), ?_⟩
  ext i hi
  simp [getLsbD_wordOfBytes, show ¬ 16 + i < 8 by omega]

/-- R183: the lowest unknown position is one of the count's positions, and its index names no word. -/
theorem exists_of_firstUnknown {idx : Vector Word 24} {n j : Nat} (h : firstUnknown (indexList idx n) = some j) :
    ∃ k : Fin 24, k.val = j ∧ k.val < n ∧ 2047 < (idx[k]).toNat := by
  obtain ⟨hj, unknown, -⟩ := firstUnknown_eq_some.1 h
  rw [getElem_indexList] at unknown
  obtain ⟨below, inside⟩ : j < n ∧ j < 24 := by simpa using hj
  exact ⟨⟨j, inside⟩, rfl, below, unknown⟩

/-- R184: code 4 is reported on a stream whose two checksums differ, with both of them. -/
theorem mismatch_of_exec_decode {s t : State} {v : Nat} (hv : v = joinGroups (indexList s.idx s.wcount.toNat))
    (run : exec .decode s = .next t) (code : t.errCode = 4) :
    checksum (candidateEntropy v s.wcount.toNat) ≠ foundChecksum v s.wcount.toNat ∧
      t.errInfo = mismatchInfo (checksum (candidateEntropy v s.wcount.toNat)) (foundChecksum v s.wcount.toNat) := by
  subst hv
  obtain ⟨-, ends⟩ | ⟨-, j, -, ends⟩ | ⟨-, -, ends⟩ := execDecode_cases s <;> rw [exec, ends] at run <;> cases run
  · simp [errorCode] at code
  · simp [errorCode] at code
  · obtain ⟨-, ends⟩ | ⟨differ, ends⟩ :=
      decodeStream_cases (joinGroups (indexList s.idx s.wcount.toNat)) s.wcount.toNat s <;> rw [ends] at code ⊢
    · simp at code
    · exact ⟨differ, rfl⟩

/-- Settles O51: a raised error names its command and its cause, for which DECODE reads IDX in two cases. -/
theorem errorReportsCauseAndInfo : Obligations.ErrorReportsCauseAndInfo := by
  intro i s t run
  by_cases ok : t.errCode = 0
  · obtain rfl | ⟨e, info, rfl⟩ := exec_writes_result_or_fails run
    · exact .inl ⟨rfl, rfl⟩
    · exact absurd ok (raiseError_failed e info s)
  · refine .inr ?_
    obtain ⟨e, info, rfl, kinds⟩ := exec_error_kinds run ok
    obtain ⟨rfl, command, rfl, invalid⟩ | ⟨rfl, rfl, rfl, invalid⟩ | ⟨rfl, rfl, j, unknown, rfl⟩ | ⟨rfl, rfl, -⟩ |
      ⟨rfl, command, rfl⟩ | ⟨rfl, rfl, rfl, long⟩ := kinds
    · exact .inl ⟨rfl, command, mt validEntLen_iff.2 (ne_true_of_eq_false invalid), rfl⟩
    · exact .inr (.inl ⟨rfl, rfl, mt validWordCount_iff.2 (ne_true_of_eq_false invalid), rfl⟩)
    · obtain ⟨k, rfl, below, large⟩ := exists_of_firstUnknown unknown
      have position : (BitVec.ofNat 32 k.val).toNat = k.val := Nat.mod_eq_of_lt (by omega)
      exact .inr (.inr (.inl ⟨rfl, rfl, k, below, large, position, rfl⟩))
    · obtain ⟨differ, info_eq⟩ := mismatch_of_exec_decode rfl run rfl
      rw [info_eq]
      exact .inr (.inr (.inr (.inl ⟨rfl, rfl, _, rfl, differ, extractLsb'_mismatchInfo _ _⟩)))
    · exact .inr (.inr (.inr (.inr (.inl ⟨rfl, command, rfl⟩))))
    · exact .inr (.inr (.inr (.inr (.inr ⟨rfl, rfl, long, rfl⟩))))

/-! ### A completion and a write in both orders (R306) -/

/-- R344: a write that the busy block drops. -/
theorem performs_wr_of_dropped {s : State} {off : BitVec 8} (v : Word) (ha : off.toNat % 4 = 0)
    (hb : s.statusBusy = true) (hd : droppedWhileBusy (regAt off) = true) :
    Performs [wr off v] s (respond .okay 0 (setOverrun s)) :=
  performs_one fun _ => step_wr_of_dropped rfl ha hb hd

/-- A script that leads to a state without events leads there when it is the whole agenda. -/
theorem runScript_of_performs {script : List Event} {s t : State} (h : Performs script s t) (ha : t.agenda = []) :
    runScript script s = .next t := by
  rw [h.runScript, ← ha]

/-- R306: the completion after a dropped write is the completion of the command, with OVR set. -/
theorem exec_after_dropped {i : Instr} {s u : State} (h : exec i s = .next u) :
    exec i (respond .okay 0 (setOverrun s)) = .next (respond .okay 0 (setOverrun u)) := by
  obtain ⟨-, -, -, ie, -, agenda, -, draws⟩ := exec_control h
  refine (exec_passes_through s.ctrlIe true s.agenda (some ⟨.okay, 0⟩) s.draws h).trans ?_
  rw [← ie, ← agenda, ← draws]
  rfl

/-- Settles O13: the busy block drops the write, and the block that the completion leaves idle stores it. -/
theorem bothOrdersOfCompletionAndWrite : Obligations.BothOrdersOfCompletionAndWrite := by
  intro s u off v busy empty run listed ha
  obtain ⟨idle, -, -, -, -, agenda, -⟩ := exec_control run
  rw [empty] at agenda
  constructor
  · have dropped := performs_wr_of_dropped v ha busy ((droppedWhileBusy_regAt off ha).2 listed)
    exact runScript_of_performs (dropped.append (performs_completion busy (exec_after_dropped run))) agenda
  · have stored := performs_wr v ha idle
    refine runScript_of_performs ((performs_completion busy run).append stored) ?_
    rw [respond_agenda, storeRegister_agenda, agenda]

end Sys2Proof.Machine
end

section
/-! ## Reset and hazards (70_reset_and_hazards.md)

Every step takes one event off the agenda, so a busy block comes to its completion. A write and the read right after it are two
steps; the read is of a defined value, also the read of CMD after an issue. -/

namespace Sys2Proof.Machine

/-! ### Every command completes (R350) -/

@[simp] theorem writeRegister_agenda (r : Reg) (v : Word) (s : State) : (writeRegister r v s).agenda = s.agenda := by
  obtain ⟨-, -, hw⟩ | ⟨-, hw⟩ := writeRegister_cases r v s <;> simp [hw]

@[simp] theorem busRequest_agenda (r : Request) (s : State) : (busRequest r s).agenda = s.agenda := by
  obtain ⟨_, -, ht⟩ | ⟨_, -, ⟨-, ht⟩ | ⟨-, -, ht⟩ | ⟨-, -, ht⟩⟩ := busRequest_cases r s <;> simp [ht]

/-- R83: a step takes the head of the agenda off, whatever the event is. -/
theorem step_agenda {s t : State} (h : step s = .next t) : t.agenda = s.agenda.tail := by
  obtain ⟨-, ha, run⟩ | ⟨-, rest, ha, run⟩ | ⟨-, ha, rfl⟩ | ⟨-, rest, ha, rfl⟩ | ⟨r, rest, ha, rfl⟩ | ⟨rest, ha, rfl⟩ :=
    step_cases h
  · obtain ⟨-, -, -, -, -, agenda, -⟩ := exec_control run
    rw [agenda, ha]; rfl
  · obtain ⟨-, -, -, -, -, agenda, -⟩ := exec_control run
    rw [agenda, ha]; rfl
  · rw [ha]; rfl
  · rw [ha]; rfl
  · rw [busRequest_agenda, ha]; rfl
  · rw [applyReset_agenda, ha]; rfl

/-- Settles O12, by induction on the agenda: with no event left the block completes, and a step that leaves it busy leaves it
one event less. -/
theorem everyCommandCompletes : Obligations.EveryCommandCompletes := by
  intro s busy
  induction ha : s.agenda generalizing s with
  | nil =>
    obtain ⟨t, run⟩ := exists_exec_eq_next (decode s.pend) s
    obtain ⟨idle, -⟩ := exec_control run
    exact ⟨1, t, Nat.le_refl 1, runSteps_succ ((step_of_empty_of_busy ha busy).trans run), idle⟩
  | cons event rest ih =>
    obtain ⟨u, first⟩ := exists_step_eq_next s
    cases hu : u.statusBusy with
    | false => exact ⟨1, u, by omega, runSteps_succ first, hu⟩
    | true =>
      have agenda : u.agenda = rest := by rw [step_agenda first, ha, List.tail_cons]
      obtain ⟨k, t, bound, later, idle⟩ := ih u hu agenda
      exact ⟨k + 1, t, Nat.succ_le_succ bound, (runSteps_succ first).trans later, idle⟩

/-! ### Accesses to the busy block (R344, R345, R346) -/

/-- Settles O24: the write is dropped, or reaches CTRL, STATUS, or a register that ignores it. -/
theorem busyRuleDropsOperandWrites : Obligations.BusyRuleDropsOperandWrites := by
  intro s off v rest head ha busy
  refine ⟨fun listed => ?_, fun ho => ?_, fun ho => ?_, fun listed => ?_⟩
  · exact step_wr_of_dropped head ha busy ((droppedWhileBusy_regAt off ha).2 listed)
  · rw [offset_eq ho] at head
    exact step_wr_ctrl head
  · rw [offset_eq ho] at head
    exact step_wr_status head
  · exact (readOnlyAndReservedWritesIgnored s off v rest ha).1 head listed

/-- Settles O22: the first offsets are those of BUSY_UNSPECIFIED; ERR_CODE and ERR_INFO are read as they are, 0. -/
theorem busyReadIsUnspecified : Obligations.BusyReadIsUnspecified := by
  intro s off rest head ha busy
  refine ⟨fun low high => ?_, fun clear errorOffset => ?_⟩
  · exact step_rd_of_unspecified head ha busy ((busyUnspecified_regAt off).2 ⟨low, high⟩)
  · obtain ⟨-, code, info⟩ := clear busy
    obtain ho | ho := errorOffset <;> obtain rfl := offset_eq ho
    · rw [step_rd_of_specified head rfl rfl, regAt_errCode, registerValue, code]
      rfl
    · rw [step_rd_of_specified head rfl rfl, regAt_errInfo, registerValue, info]
      rfl

/-- Settles O28: both writes are accepted as ever, and DONE is 0 before the write to STATUS and after it. -/
theorem busyControlWritesAccepted : Obligations.BusyControlWritesAccepted := by
  intro s v rest busy clear
  obtain ⟨done, -, -⟩ := clear busy
  refine ⟨fun head => step_wr_ctrl head, fun head => ?_⟩
  rw [step_wr_status head]
  simp [clearStatusBits, respond, done]

/-! ### A write and the read right after it (R348) -/

/-- After a write to the idle block its register is read as defined: only an issue makes the block busy, and CMD is not in
BUSY_UNSPECIFIED. -/
theorem defined_after_storeRegister {s : State} (r : Reg) (v : Word) (hb : s.statusBusy = false) :
    ((storeRegister r v s).statusBusy && busyUnspecified r) = false := by
  cases r with
  | cmd => rfl
  | ctrl | status | errCode | errInfo | entLen | wcount | csum | ent | digest | idx | reserved =>
    exact Bool.and_eq_false_imp.2 fun busy => absurd (hb.symm.trans busy) (by decide)

/-- R75: an operand register holds what was written. -/
theorem registerValue_storeRegister_operand {r : Reg} (v : Word) (s : State) (operand : droppedWhileBusy r = true)
    (notCmd : r ≠ .cmd) : registerValue r (storeRegister r v s) = v := by
  cases r with
  | entLen | wcount => rfl
  | ent k | idx k => simp [registerValue, storeRegister]
  | cmd => exact absurd rfl notCmd
  | ctrl | status | errCode | errInfo | csum | digest | reserved => cases operand

/-- The response on the bus is no register. -/
@[simp] theorem registerValue_respond (r : Reg) (resp : Resp) (rdata : Word) (s : State) :
    registerValue r (respond resp rdata s) = registerValue r s := by
  cases r <;> rfl

/-- R74: a legal read of a defined value. -/
theorem performs_rd_of_defined {s : State} {off : BitVec 8} (ha : off.toNat % 4 = 0)
    (hd : (s.statusBusy && busyUnspecified (regAt off)) = false) :
    Performs [rd off] s (respond .okay (registerValue (regAt off) s) s) := by
  refine performs_one fun rest => (step_rd_of_defined (s := { s with agenda := rd off :: rest }) rfl ha hd).trans ?_
  rw [registerValue_agenda]
  rfl

/-- A script at the head of the agenda runs in as many steps as it has events. -/
theorem Performs.runSteps_eq {script rest : List Event} {s t : State} (h : Performs script s t)
    (head : s.agenda = script ++ rest) : runSteps script.length s = .next { t with agenda := rest } := by
  have run := h rest
  rwa [← head] at run

/-- R348: a write to the idle block and a read of the same offset: the read answers the register as stored. -/
theorem response_of_write_then_read {s t : State} {off : BitVec 8} {v : Word} {rest : List Event}
    (hb : s.statusBusy = false) (head : s.agenda = wr off v :: rd off :: rest) (ha : off.toNat % 4 = 0)
    (run : runSteps 2 s = .next t) :
    t.response = some ⟨.okay, registerValue (regAt off) (storeRegister (regAt off) v s)⟩ := by
  have write := performs_wr v ha hb
  have read := performs_rd_of_defined (s := respond .okay 0 (storeRegister (regAt off) v s)) ha
    (defined_after_storeRegister (regAt off) v hb)
  cases ((write.append read).runSteps_eq head).symm.trans run
  rw [respond_response, registerValue_respond]

/-- Settles O29: an operand register holds the value, and CTRL, CMD and STATUS read as their rules define. -/
theorem writeReadsBackAtOnce : Obligations.WriteReadsBackAtOnce := by
  intro s t off v rest idle head run
  refine ⟨fun ha listed => ?_, fun ho => ?_, fun ho => ?_, fun ho => ?_⟩
  · have operand := (droppedWhileBusy_regAt off ha).2 (.inr listed)
    have notCmd : regAt off ≠ .cmd := fun hr => by
      obtain rfl := (regAt_eq_cmd off ha).1 hr
      exact absurd listed (by decide)
    rw [response_of_write_then_read idle head ha run, registerValue_storeRegister_operand v s operand notCmd]
  · rw [response_of_write_then_read idle head (by omega) run, offset_eq ho]
    exact congrArg (fun value => some (Response.mk .okay value)) (ctrlWord_eq _)
  · rw [response_of_write_then_read idle head (by omega) run, offset_eq ho]
    rfl
  · rw [response_of_write_then_read idle head (by omega) run, offset_eq ho]
    rfl

/-! ### Reset (R340, R341) -/

/-- R341: the step of a reset, busy or not. -/
theorem step_reset {s : State} {rest : List Event} (h : s.agenda = .reset :: rest) :
    step s = .next (applyReset { s with agenda := rest }) := by
  simp [step, h]

/-- R34, R340: STATUS reads 0 after a reset. -/
theorem statusWord_applyReset (s : State) : statusWord (applyReset s) = 0 := by
  have eq_reset : statusWord (applyReset s) = statusWord State.reset := rfl
  rw [eq_reset]
  decide

/-- Settles O1: the step is the reset, whose registers are those of the reset state. -/
theorem resetSetsEveryRegisterToZero : Obligations.ResetSetsEveryRegisterToZero := by
  intro s rest head
  refine ⟨_, step_reset head, rfl, rfl, rfl, rfl, statusWord_applyReset _, rfl, rfl, rfl, rfl, rfl, fun k => ?_, fun j => ?_,
    rfl, rfl, rfl, rfl⟩
  · simp
  · simp

end Sys2Proof.Machine
end

section
/-! ## Decoding and encoding, the reset state, and the invariant of every step

The default row is told by the decoder itself: a word is illegal exactly when it decodes to the row that carries it. The
invariant speaks of BUSY, DONE, the error result and PEND, so `StepEvent` names every step that matters to it. -/

namespace Sys2Proof.Machine

/-! ### The encoder and the decoder (R100 to R102) -/

/-- R104, R255: the illegal words are those the decoder leaves to the default row. -/
theorem illegalWord_iff (v : Word) : illegalWord v = true ↔ decode v = .illegal v := by
  obtain ⟨-, -, -, -, -, illegal, -⟩ := exactlyFiveWordsAreCommands v
  have op_le : (v.extractLsb' 0 4).toNat ≤ 15 := Nat.le_of_lt_succ (v.extractLsb' 0 4).isLt
  rw [illegal, and_iff_left op_le]
  simp only [illegalWord, Bool.or_eq_true, bne_iff_ne, beq_iff_eq, decide_eq_true_eq, or_assoc, ← BitVec.toNat_inj]
  rfl

/-- R100: MBZ above OP is the whole word. -/
theorem encode_illegal (v : Word) : encode (.illegal v) = v := by
  have fields : mbzField v ++ opField v = v.extractLsb' 0 32 := BitVec.extractLsb'_append_extractLsb'_eq_extractLsb' rfl
  exact fields.trans BitVec.extractLsb'_eq_self

/-- Settles O8: the five command words are read back, and an illegal word carries itself. -/
theorem decodeOfEncodeIsIdentity : Obligations.DecodeOfEncodeIsIdentity := by
  intro i wf
  cases i with
  | validate | encode | decode | hash | clear => rfl
  | illegal w =>
    rw [encode_illegal]
    exact (illegalWord_iff w).1 wf

/-- Settles O9: a word is illegal and carried by the default row, or is the word of its command. -/
theorem encodeOfDecodeIsIdentity : Obligations.EncodeOfDecodeIsIdentity := by
  intro v
  obtain ⟨-, h⟩ | ⟨rfl, h⟩ | ⟨rfl, h⟩ | ⟨rfl, h⟩ | ⟨rfl, h⟩ | ⟨rfl, h⟩ := decode_cases v <;> rw [h]
  · exact ⟨(illegalWord_iff v).2 h, encode_illegal v⟩
  all_goals exact ⟨rfl, rfl⟩

/-- R102: the word the default row carries is the decoded word. -/
theorem eq_of_decode_eq_illegal {v w : Word} (h : decode v = .illegal w) : w = v := by
  obtain ⟨-, -, -, -, -, -, carried⟩ := exactlyFiveWordsAreCommands v
  exact carried w h

/-- Log 2: a fetched word is issued, with its completion at the head of the agenda. -/
theorem withFetchWord_eq (s : State) (w : Word) :
    s.withFetchWord 32 w.toNat = { issue w s with agenda := .completion :: s.agenda } := by
  rw [State.withFetchWord, Nat.mod_eq_of_lt w.isLt, BitVec.ofNat_toNat, BitVec.setWidth_eq]

/-- Settles O4: the issue makes the block busy with the word in PEND, so the completion runs it. -/
theorem fetchWordRunsNext : Obligations.FetchWordRunsNext := by
  intro s w
  rw [withFetchWord_eq]
  exact step_completion rfl rfl

/-! ### The reset state (R31, R340) -/

/-- R340: every register reads 0 after a reset. -/
theorem registerValue_reset (r : Reg) : registerValue r State.reset = 0 := by
  cases r with
  | ent | digest | idx => simp [registerValue]
  | ctrl | cmd | status | errCode | errInfo | entLen | wcount | csum | reserved => rfl

/-- Settles O2: the block is idle, and each offset is the offset of a register. -/
theorem resetStateReadsZeroEverywhere : Obligations.ResetStateReadsZeroEverywhere :=
  ⟨rfl, rfl, rfl, fun off _ => registerValue_reset (regAt off)⟩

/-- R302, R303: no error result is a legal one, whatever PEND holds. -/
theorem errorResultLegal_of_clear {s : State} (code : s.errCode = 0) (info : s.errInfo = 0) : ErrorResultLegal s :=
  .inl ⟨code, info⟩

/-- An idle block with a legal error result is good. -/
theorem inv_of_idle {s : State} (idle : s.statusBusy = false) (legal : ErrorResultLegal s) : Inv s :=
  ⟨fun busy => absurd (idle.symm.trans busy) (by decide), legal⟩

/-- Settles O14: the block is idle after a reset, without an error. -/
theorem invariantAtReset : Obligations.InvariantAtReset :=
  inv_of_idle rfl (errorResultLegal_of_clear rfl rfl)

/-! ### Every step keeps the invariant (R250, R301, R302) -/

/-- A word whose upper half is zero is a 16-bit number. -/
theorem toNat_lt_of_upper_half_zero {v : Word} (h : v.extractLsb' 16 16 = 0) : v.toNat < 2 ^ 16 := by
  have upper : v.toNat / 2 ^ 16 % 2 ^ 16 = 0 := by
    rw [← Nat.shiftRight_eq_div_pow, ← BitVec.extractLsb'_toNat, h]
    rfl
  have := v.isLt
  omega

/-- R301, R302: the completion of the decoded PEND leaves an error result its command may report. -/
theorem errorResultLegal_of_exec {s t : State} (run : exec (decode s.pend) s = .next t) : ErrorResultLegal t := by
  obtain ⟨-, -, -, -, pend, -⟩ := exec_control run
  unfold ErrorResultLegal
  rw [pend]
  obtain clear | ⟨code, command, invalid, info⟩ | ⟨code, command, invalid, info⟩ | ⟨code, command, j, -, -, info, -⟩ |
    ⟨code, command, -, -, -, -, -, upper⟩ | ⟨code, ⟨w, command⟩, info⟩ | ⟨code, command, long, info⟩ :=
    errorReportsCauseAndInfo _ _ _ run
  · exact .inl clear
  · rw [info]
    exact .inr (.inl ⟨code, command, Bool.eq_false_of_not_eq_true (mt validEntLen_iff.1 invalid)⟩)
  · rw [info]
    exact .inr (.inr (.inl ⟨code, command, Bool.eq_false_of_not_eq_true (mt validWordCount_iff.1 invalid)⟩))
  · exact .inr (.inr (.inr (.inl ⟨code, command, by omega⟩)))
  · exact .inr (.inr (.inr (.inr (.inl ⟨code, command, toNat_lt_of_upper_half_zero upper⟩))))
  · obtain rfl := eq_of_decode_eq_illegal command
    exact .inr (.inr (.inr (.inr (.inr (.inl ⟨code, command, info⟩)))))
  · rw [info]
    exact .inr (.inr (.inr (.inr (.inr (.inr ⟨code, command, long⟩)))))

/-- A write to STATUS clears DONE or leaves it, and touches nothing else the invariant speaks of. -/
theorem inv_clearStatusBits {s : State} (v : Word) (h : Inv s) : Inv (clearStatusBits v s) := by
  obtain ⟨resultsClear, legal⟩ := h
  refine ⟨fun busy => ?_, legal⟩
  obtain ⟨done, code, info⟩ := resultsClear busy
  exact ⟨by simp [done], code, info⟩

/-- Settles O15, by the events of a step: a completion leaves the block idle with a legal error result, an issue and a reset
clear DONE and the error result, and no other step sets DONE or writes the error result or PEND. -/
theorem stepKeepsInvariant : Obligations.StepKeepsInvariant := by
  intro s t inv h
  cases stepEvent_of_step h with
  | @completion _ rest _ run =>
    obtain ⟨idle, -⟩ := exec_control run
    exact inv_of_idle idle (errorResultLegal_of_exec (s := { s with agenda := rest }) run)
  | reset => exact invariantAtReset
  | issue => exact ⟨fun _ => ⟨rfl, rfl, rfl⟩, errorResultLegal_of_clear rfl rfl⟩
  | statusWrite => exact inv_clearStatusBits _ inv
  | ctrlWrite | droppedWrite | other => exact inv

end Sys2Proof.Machine
end

section
/-! ## SHA-256: known answers (95_test_vectors.md section 3) -/

namespace Sys2Proof.Machine

/-- The hash value of the empty message. -/
theorem shaHash_empty : shaHash [] =
    { a := 0xe3b0c442, b := 0x98fc1c14, c := 0x9afbf4c8, d := 0x996fb924,
      e := 0x27ae41e4, f := 0x649b934c, g := 0xa495991b, h := 0x7852b855 } := by decide +kernel

/-- The hash value of `abc`. -/
theorem shaHash_abc : shaHash [0x61, 0x62, 0x63] =
    { a := 0xba7816bf, b := 0x8f01cfea, c := 0x414140de, d := 0x5dae2223,
      e := 0xb00361a3, f := 0x96177a9c, g := 0xb410ff61, h := 0xf20015ad } := by decide +kernel

/-- Settles O36: the digests are the bytes of the two hash values. -/
theorem sha256KnownAnswers : Obligations.Sha256KnownAnswers := by
  unfold Obligations.Sha256KnownAnswers sha256
  rw [shaHash_empty, shaHash_abc]
  decide

end Sys2Proof.Machine
end
